-- ==== Sys2Proof/Word.lean ====
section
/-! DEFINITION. The word types of the hasher core. Every value is unsigned (00_scope R6); arithmetic
on these types wraps, shifts are logical and comparisons are unsigned (00_scope R7). -/

namespace Sys2Proof

/-- A 64-bit value: accumulators, cursor, counter, host registers (00_scope R5, `XLEN`, `LEN_W`). -/
abbrev Word := BitVec 64

/-- A 32-bit value: what one extraction yields (40_extract R55, R56). -/
abbrev Half := BitVec 32

/-- A byte of the buffer (20_memory R31). -/
abbrev Byte := BitVec 8

/-- An operation code: a value of `PHASE` (30_encoding R45). -/
abbrev OpCode := BitVec 4

end Sys2Proof
end

