-- ==== Sys2Proof/Syntax.lean ====
section
/-! DEFINITION. The operations of the loop controller, one constructor per row of
spec/opcode_table.json (30_encoding R51). -/

namespace Sys2Proof

/-- An operation of the loop controller (30_encoding R51). No operation encodes an operand (R45);
the two reserved rows that stand for several codes carry the code itself (log 14). -/
inductive Instr where
  | idle
  | init
  | blkb
  | blka
  | midb
  | taila
  | final
  | done
  | fault
  | reserved9
  | reserved10to11 (op : OpCode)
  | reserved12to15 (op : OpCode)
  deriving DecidableEq, Repr

end Sys2Proof
end

