-- ==== Sys2Proof/WellFormed.lean ====
section
/-! DEFINITION. Which operations are well formed: a reserved row's code lies in that row
(30_encoding R51, rows `101x` and `11xx`). -/

namespace Sys2Proof

/-- The code an operation carries lies in its row of the opcode map (30_encoding R51). -/
def Instr.wellFormed : Instr → Bool
  | .reserved10to11 op => op == 10#4 || op == 11#4
  | .reserved12to15 op => decide (12#4 ≤ op)
  | .idle => true
  | .init => true
  | .blkb => true
  | .blka => true
  | .midb => true
  | .taila => true
  | .final => true
  | .done => true
  | .fault => true
  | .reserved9 => true

end Sys2Proof
end

