-- ==== Sys2Proof/Decode.lean ====
section
/-! DEFINITION. The decoder and the encoder of format `P` (30_encoding R45, R51). -/

namespace Sys2Proof

/-- Why a table word is no word of format `P`. Both are the model's own (log 14) and safe: the
machine's `PHASE` has four bits, so no step meets them. -/
inductive DecodeError where
  /-- Fewer bits than the four of format `P` were given. -/
  | tooShort (nbits : Nat)
  /-- A bit above bit 3 is set. -/
  | tooWide (w : Nat)
  deriving DecidableEq, Repr

/-- "The complete map of format `P`. A decoder is `op -> operation` by this table and nothing else."
(30_encoding R51.) The bits stand as the table's column `encoding` has them, bit 3 first. -/
def decode (op : OpCode) : Instr :=
  match op.getLsbD 3, op.getLsbD 2, op.getLsbD 1, op.getLsbD 0 with
  | false, false, false, false => .idle
  | false, false, false, true => .init
  | false, false, true, false => .blkb
  | false, false, true, true => .blka
  | false, true, false, false => .midb
  | false, true, false, true => .taila
  | false, true, true, false => .final
  | false, true, true, true => .done
  | true, false, false, false => .fault
  | true, false, false, true => .reserved9
  | true, false, true, _ => .reserved10to11 op
  | true, true, _, _ => .reserved12to15 op

/-- The decoder on the bits of a stored word: four bits are the code, every further bit must be 0;
anything else is rejected by name. -/
def decodeWord (nbits w : Nat) : Except DecodeError Instr :=
  if nbits < 4 then .error (.tooShort nbits)
  else if 16 ≤ w then .error (.tooWide w)
  else .ok (decode (BitVec.ofNat 4 w))

/-- The operation the decoder reads from a word of the opcode table. -/
def decodeTableWord (nbits w : Nat) : Option Instr :=
  match decodeWord nbits w with
  | .ok i => some i
  | .error _ => none

/-- The code of an operation (30_encoding R51, column `op`). -/
def encode : Instr → OpCode
  | .idle => 0#4
  | .init => 1#4
  | .blkb => 2#4
  | .blka => 3#4
  | .midb => 4#4
  | .taila => 5#4
  | .final => 6#4
  | .done => 7#4
  | .fault => 8#4
  | .reserved9 => 9#4
  | .reserved10to11 op => op
  | .reserved12to15 op => op

end Sys2Proof
end

