-- ==== Sys2Proof/Config.lean ====
section
/-! DEFINITION. What an implementation fixes and the spec leaves open: the free values. -/

namespace Sys2Proof.Config

/-- The free values of the hardware: "a model must treat it as any 64-bit value" (10_state R24),
"each may keep its old value or take any other" (70_reset R115). It has no body, so nothing can be
proved of a value of it; `State.freeIndex` gives each use an argument of its own (log 4). -/
opaque unspecified : Nat → Word

end Sys2Proof.Config
end

