-- ==== Sys2Proof/Machine/State.lean ====
section
/-! DEFINITION. The state of the hasher core as plain data: the tuple of 10_state R30, the buffer
the platform offers it, and the model's own bookkeeping of which agent moves next. -/

namespace Sys2Proof.Machine

/-- Reasons a step stops the machine. There are none: the core's own faults are taken into the sticky
phase `FAULT` as next states (60_exceptions R103), and "a core step is always enabled"
(42_controller R73). See log 10. -/
inductive Fault where
  deriving DecidableEq, Repr

/-- Reasons a step has no meaning. -/
inductive Refusal where
  /-- Raised by `exec` for an operation without a meaning; no arm raises it in this model. Safe. -/
  | notModelled (mnemonic : String)
  /-- Raised by a host access to a register number outside 0..5, which "a model refuses (gives it no
  meaning)" (43_host R99). Safe. -/
  | noSuchHostRegister (num : Nat)
  deriving DecidableEq, Repr

/-- The fault an operation raises, with what fault entry records of it (60_exceptions R100). -/
inductive Trap where
  /-- A refused `MemRead`, with its index argument. -/
  | mem (addr : Word)
  /-- A reserved code in `PHASE`. -/
  | illegalPhase
  /-- An operation entered, or an extraction primitive called, outside its range. -/
  | contract
  deriving DecidableEq, Repr

/-- The two accumulators a fold writes (41_fold R67). -/
inductive Acc where
  | h
  | k
  deriving DecidableEq, Repr

/-- A step of the host: "a register write `WR num, wdata`, a register read `RD num` …, and `RESET`"
(43_host R90). `num` is the register number itself (log 9). -/
inductive HostStep where
  | wr (num : Nat) (wdata : Word)
  | rd (num : Nat)
  | reset
  deriving DecidableEq, Repr

/-- One atomic step of some agent (00_scope R26): the core's, the host's, or a change of the buffer
by its owner (43_host R90; 20_memory R33). -/
inductive Move where
  | core
  | host (c : HostStep)
  /-- The byte at `index` becomes `b` and is readable. -/
  | place (index : Word) (b : Byte)
  /-- The byte at `index` is no longer readable. -/
  | withdraw (index : Word)
  deriving DecidableEq, Repr

/-- What a host read returned: the register number and the 64-bit value (30_encoding R49). -/
structure HostReply where
  num : Nat
  value : Word
  deriving DecidableEq, Repr

/-- The buffer: the pairs (index, byte) with `Readable(index)` and `DATA[index] = byte`, indices
strictly rising and below 2^64 (20_memory R31, R33; log 1). An index that is not listed is not
readable. -/
abbrev Memory := List Host.Cell

/-- The state. The first nine fields are "the complete state of the hardware" (10_state R30). -/
structure State where
  /-- Accumulator `H` (10_state R10). -/
  h : Word
  /-- Accumulator `K` (10_state R11). -/
  k : Word
  /-- Cursor `POS` (10_state R12). -/
  pos : Word
  /-- Remaining length `LEN` (10_state R13). -/
  len : Word
  /-- Sequencer `PHASE`, the program counter of this hardware (10_state R18; 00_scope R9). -/
  phase : OpCode
  /-- Fault cause `CAUSE` (10_state R27). -/
  cause : BitVec 2
  /-- Host register 0, `SEED` (10_state R20). -/
  seed : Word
  /-- Host register 1, `LENGTH` (10_state R21). -/
  length : Word
  /-- Host register 5, `FADDR` (10_state R25). -/
  faddr : Word
  /-- `DATA` and `Readable` (20_memory R31, R33; log 1). -/
  buffer : Memory
  /-- The model's own: whose moves come next (00_scope R26; log 6). -/
  schedule : List Move
  /-- The model's own: what host reads returned, newest first (log 7). -/
  replies : List HostReply
  /-- The model's own: the number of free values taken so far (log 4). -/
  freeIndex : Nat
  deriving DecidableEq, Repr

/-- The state after reset (70_reset R115): `PHASE = IDLE`, `CAUSE = NONE`. The spec gives the other
registers no value; 0 is the model's DESIGN CHOICE (log 3). Nothing is in the buffer (log 1) and no
agent but the core is scheduled (log 6). -/
def State.reset : State where
  h := 0#64
  k := 0#64
  pos := 0#64
  len := 0#64
  phase := 0#4
  cause := 0#2
  seed := 0#64
  length := 0#64
  faddr := 0#64
  buffer := []
  schedule := []
  replies := []
  freeIndex := 0

end Sys2Proof.Machine
end

