-- ==== Sys2Proof/Machine/Ops.lean ====
section
/-! DEFINITION. The named operations over the buffer and the registers: codes of `PHASE` and
`CAUSE`, the one memory access, accumulator access, fault entry and reset. -/

namespace Sys2Proof.Machine

/-! ### Codes of `PHASE` (10_state R18) and `CAUSE` (10_state R27) -/

@[simp] abbrev phaseIdle : OpCode := 0#4
@[simp] abbrev phaseInit : OpCode := 1#4
@[simp] abbrev phaseBlkb : OpCode := 2#4
@[simp] abbrev phaseBlka : OpCode := 3#4
@[simp] abbrev phaseMidb : OpCode := 4#4
@[simp] abbrev phaseTaila : OpCode := 5#4
@[simp] abbrev phaseFinal : OpCode := 6#4
@[simp] abbrev phaseDone : OpCode := 7#4
@[simp] abbrev phaseFault : OpCode := 8#4

@[simp] abbrev causeNone : BitVec 2 := 0#2
@[simp] abbrev causeMem : BitVec 2 := 1#2
@[simp] abbrev causeIllegalPhase : BitVec 2 := 2#2
@[simp] abbrev causeContract : BitVec 2 := 3#2

/-! ### The buffer (20_memory R31, R33) -/

/-- All indices are at least `lo`, strictly rising and below 2^64. -/
def Memory.risingFrom : Nat → Memory → Bool
  | _, [] => true
  | lo, (a, _) :: m => decide (lo ≤ a) && decide (a < 2 ^ 64) && Memory.risingFrom (a + 1) m

/-- The canonical form of the buffer: strictly rising 64-bit indices. An unlisted index has no byte,
so no entry can equal what an unlisted index reads as. -/
def Memory.wf (m : Memory) : Bool := Memory.risingFrom 0 m

/-- `DATA[a]` where `Readable(a)` holds, nothing elsewhere. -/
def Memory.read : Memory → Nat → Option Byte
  | [], _ => none
  | (a, b) :: m, i => if i = a then some b else Memory.read m i

/-- `Readable(i)` (20_memory R33): the platform offers a byte at index `i`. -/
def Memory.readable (m : Memory) (i : Nat) : Bool := (m.read i).isSome

/-- Make `DATA[i] = b` readable. -/
def Memory.place : Memory → Nat → Byte → Memory
  | [], i, b => [(i, b)]
  | (a, c) :: m, i, b =>
    if i < a then (i, b) :: (a, c) :: m
    else if i = a then (i, b) :: m
    else (a, c) :: Memory.place m i b

/-- Make index `i` unreadable. -/
def Memory.withdraw : Memory → Nat → Memory
  | [], _ => []
  | (a, c) :: m, i => if i = a then m else (a, c) :: Memory.withdraw m i

/-- The `n` bytes at `a, a+1, …, a+n-1` if every one of them is readable; indices are 64-bit values
and their sums wrap (00_scope R7; log 2). -/
def Memory.readBytes (m : Memory) (a : Word) : Nat → Option (List Byte)
  | 0 => some []
  | n + 1 =>
    match m.read a.toNat, Memory.readBytes m (a + 1#64) n with
    | some b, some bs => some (b :: bs)
    | _, _ => none

/-- `MemRead(addr, n)` (20_memory R33): admitted when every byte is readable, otherwise refused whole
with `Fault(MEM, addr)`. -/
def memRead (m : Memory) (addr : Word) (n : Nat) : Except Trap (List Byte) :=
  match m.readBytes addr n with
  | some bs => .ok bs
  | none => .error (.mem addr)

/-! ### Accumulators -/

/-- `x[r]` for an accumulator (00_scope R9). -/
def State.acc (s : State) : Acc → Word
  | .h => s.h
  | .k => s.k

/-- `x[r] <- v` for an accumulator (00_scope R9). -/
def State.setAcc (s : State) (r : Acc) (v : Word) : State :=
  match r with
  | .h => { s with h := v }
  | .k => { s with k := v }

/-! ### Fault entry and its only exit -/

/-- `raise Fault(cause, addr)` (60_exceptions R103): "`PHASE <- FAULT`, `CAUSE <- cause`, if cause ==
MEM: `FADDR <- addr`", in place of every register write of the operation. -/
def raiseFault (t : Trap) (s : State) : State :=
  match t with
  | .mem addr => { s with phase := phaseFault, cause := causeMem, faddr := addr }
  | .illegalPhase => { s with phase := phaseFault, cause := causeIllegalPhase }
  | .contract => { s with phase := phaseFault, cause := causeContract }

/-- How an operation ends: with its register writes, or, where it raised a fault, with fault entry
on the state before it (42_controller R73; 60_exceptions R104). -/
def complete (s : State) (r : Except Trap State) : Host.Outcome State Fault Refusal :=
  match r with
  | .ok t => .next t
  | .error f => .next (raiseFault f s)

/-- The check of an operation's condition (42_controller R74): `Fault(CONTRACT, -)` where it does not
hold. -/
def require (c : Bool) : Except Trap Unit :=
  if c then .ok () else .error .contract

/-- Reset (70_reset R115), the only exit from `FAULT` (60_exceptions R107): `PHASE <- IDLE`, `CAUSE <-
NONE`, and the seven registers take free values (log 5). The buffer is not affected (R116). -/
def applyReset (s : State) : State :=
  { s with
    phase := phaseIdle
    cause := causeNone
    h := Config.unspecified s.freeIndex
    k := Config.unspecified (s.freeIndex + 1)
    pos := Config.unspecified (s.freeIndex + 2)
    len := Config.unspecified (s.freeIndex + 3)
    seed := Config.unspecified (s.freeIndex + 4)
    length := Config.unspecified (s.freeIndex + 5)
    faddr := Config.unspecified (s.freeIndex + 6)
    freeIndex := s.freeIndex + 7 }

/-! ### Sequencing -/

/-- The word that selects the next core operation: `PHASE` itself, there is no fetch
(42_controller R73; 20_memory R40). -/
def fetch (s : State) : OpCode := s.phase

/-- `s` about to perform the core operation of code `op`, with no other agent's move before it. -/
def placeFetch (s : State) (op : OpCode) : State := { s with phase := op, schedule := [] }

/-- `Dispatch(l)` (42_controller R75): the next phase after INIT, BLKA and MIDB. -/
def dispatch (l : Word) : OpCode :=
  if 16#64 ≤ l then phaseBlkb
  else if 8#64 ≤ l then phaseMidb
  else if 0#64 < l then phaseTaila
  else phaseFinal

end Sys2Proof.Machine
end

