-- ==== Sys2Proof/Machine/Operands.lean ====
section
/-! DEFINITION. How a 64-bit fold operand is assembled (30_encoding R47): the word extractor
(40_extract R55 to R58) and the operand forms `MEM8`, `MEMP` and `FIN`. -/

namespace Sys2Proof.Machine

/-- The bytes of a word, least significant first, the first of them at bit `8*j`: each is
zero-extended, shifted to its place and ORed in (40_extract R55, R56). -/
def assembleFrom : Nat → List Byte → Half
  | _, [] => 0#32
  | j, b :: bs => (b.setWidth 32 <<< (8 * j)) ||| assembleFrom (j + 1) bs

/-- `GET32(index)` (40_extract R55). -/
def get32 (m : Memory) (index : Word) : Except Trap Half := do
  let bytes ← memRead m index 4
  return assembleFrom 0 bytes

/-- `GETP32(index, available)` (40_extract R56): 1 to 3 bytes, the missing high bytes zero. -/
def getP32 (m : Memory) (index : Word) (available : Nat) : Except Trap Half := do
  require (decide (1 ≤ available) && decide (available ≤ 3))
  let bytes ← memRead m index available
  return assembleFrom 0 bytes

/-- `GET64(index)` (40_extract R57): two 4-byte reads, the lower index first and lower in the
result; both zero-extended (R60). -/
def get64 (m : Memory) (index : Word) : Except Trap Word := do
  let w0 ← get32 m index
  let w1 ← get32 m (index + 4#64)
  return w0.setWidth 64 ||| (w1.setWidth 64 <<< 32)

/-- `GETP64(index, available)` (40_extract R58): for 5 to 7 bytes the first four stand above the
remaining one to three. -/
def getP64 (m : Memory) (index : Word) (available : Nat) : Except Trap Word := do
  require (decide (1 ≤ available) && decide (available ≤ 7))
  if 4 ≤ available then
    let low ← get32 m index
    if available = 4 then
      return low.setWidth 64
    else
      let n2 := available - 4
      let hi ← getP32 m (index + 4#64) n2
      return (low.setWidth 64 <<< (n2 * 8)) ||| hi.setWidth 64
  else
    let w ← getP32 m index available
    return w.setWidth 64

/-! ### Constants (10_state R16) -/

/-- `M`, the constant of `cwmixa`. -/
def foldM : Word := 0x95b47aa3355ba1a1#64

/-- `N`, the constant of `cwmixb`, of INIT and of FINAL. -/
def foldN : Word := 0x8a970be7488fda55#64

/-! ### Operand forms (30_encoding R47) -/

/-- `MEM8`: the 8 bytes at the cursor. -/
def operandMem8 (s : State) : Except Trap Word := get64 s.buffer s.pos

/-- `MEMP`: the 1 to 7 bytes left at the cursor. -/
def operandMemP (s : State) : Except Trap Word := getP64 s.buffer s.pos s.len.toNat

/-- `FIN`: `X = x[H] ^ (x[K] + N)` (42_controller R82). -/
def operandFin (s : State) : Word := s.h ^^^ (s.k + foldN)

end Sys2Proof.Machine
end

