-- ==== Sys2Proof/Machine/Fold.lean ====
section
/-! DEFINITION. The multiply-fold unit (41_fold). No rule here writes a flag or raises a fault. -/

namespace Sys2Proof.Machine

/-- `lo32(v) = v & 0xffffffff` (00_scope R8). -/
def lo32 (v : Word) : Word := v &&& 0xffffffff#64

/-- `hi32(v) = v >> 32`, a logical shift (00_scope R8). -/
def hi32 (v : Word) : Word := v >>> 32

/-- `rM`, the carry-accumulation lane of the product (41_fold R64). -/
def carryLane (a b : Word) : Word :=
  hi32 (lo32 a * lo32 b) + lo32 (hi32 a * lo32 b) + lo32 (lo32 a * hi32 b)

/-- The `lo` word of `Product(a, b)` (41_fold R64). -/
def productLo (a b : Word) : Word := lo32 (lo32 a * lo32 b) ||| (lo32 (carryLane a b) <<< 32)

/-- The `hi` word of `Product(a, b)` (41_fold R64). It is not in general the high word of the integer
product (R66; 90_conflicts C1; log 11). -/
def productHi (a b : Word) : Word := hi32 a * hi32 b + hi32 (carryLane a b)

/-- `cwfold(x, y, loAcc, hiAcc)` (41_fold R67): `loAcc ^= lo; hiAcc ^= hi` of `Product(x, y)`. -/
def cwfold (x y : Word) (loAcc hiAcc : Acc) (s : State) : State :=
  let t := s.setAcc loAcc (s.acc loAcc ^^^ productLo x y)
  t.setAcc hiAcc (t.acc hiAcc ^^^ productHi x y)

/-- `cwmixb(X) = cwfold(X, N, H, K)` (41_fold R68). -/
def cwmixb (x : Word) (s : State) : State := cwfold x foldN .h .k s

/-- `cwmixa(Y) = cwfold(Y, M, K, H)` (41_fold R69). -/
def cwmixa (y : Word) (s : State) : State := cwfold y foldM .k .h s

end Sys2Proof.Machine
end

