-- ==== Sys2Proof/Machine/Hashing.lean ====
section
/-! DEFINITION. The operations that hash: INIT, BLKB, BLKA, MIDB, TAILA, FINAL (42_controller R77 to
R82). Each reads the state before it; its writes take effect together (R73). -/

namespace Sys2Proof.Machine

/-- The register writes of INIT (42_controller R77). -/
def initOp (s : State) : State :=
  { s with
    h := s.seed
    k := s.length + s.seed + foldN
    pos := 0#64
    len := s.length
    phase := dispatch s.length }

/-- BLKB up to its end (42_controller R78): the check, the operand, the fold, the cursor. -/
def blkbOp (s : State) : Except Trap State := do
  require (decide (16#64 ≤ s.len))
  let x ← operandMem8 s
  return { cwmixb x s with pos := s.pos + 8#64, phase := phaseBlka }

/-- BLKA up to its end (42_controller R79). -/
def blkaOp (s : State) : Except Trap State := do
  require (decide (16#64 ≤ s.len))
  let y ← operandMem8 s
  return { cwmixa y s with
    pos := s.pos + 8#64, len := s.len - 16#64, phase := dispatch (s.len - 16#64) }

/-- MIDB up to its end (42_controller R80). -/
def midbOp (s : State) : Except Trap State := do
  require (decide (8#64 ≤ s.len) && decide (s.len ≤ 15#64))
  let x ← operandMem8 s
  return { cwmixb x s with
    pos := s.pos + 8#64, len := s.len - 8#64, phase := dispatch (s.len - 8#64) }

/-- TAILA up to its end (42_controller R81); its range check is that of `GETP64`. -/
def tailaOp (s : State) : Except Trap State := do
  let y ← operandMemP s
  return { cwmixa y s with phase := phaseFinal }

/-- The register writes of FINAL (42_controller R82): the last XOR uses the `K` the fold has just
written. -/
def finalOp (s : State) : State :=
  let t := cwmixb (operandFin s) s
  { t with h := t.h ^^^ t.k, phase := phaseDone }

/-- INIT (42_controller R77). -/
def execInit (s : State) : Host.Outcome State Fault Refusal := complete s (.ok (initOp s))

/-- BLKB (42_controller R78). -/
def execBlkb (s : State) : Host.Outcome State Fault Refusal := complete s (blkbOp s)

/-- BLKA (42_controller R79). -/
def execBlka (s : State) : Host.Outcome State Fault Refusal := complete s (blkaOp s)

/-- MIDB (42_controller R80). -/
def execMidb (s : State) : Host.Outcome State Fault Refusal := complete s (midbOp s)

/-- TAILA (42_controller R81). -/
def execTaila (s : State) : Host.Outcome State Fault Refusal := complete s (tailaOp s)

/-- FINAL (42_controller R82). -/
def execFinal (s : State) : Host.Outcome State Fault Refusal := complete s (.ok (finalOp s))

end Sys2Proof.Machine
end

