-- ==== Sys2Proof/Machine/Wait.lean ====
section
/-! DEFINITION. The operations that change nothing and the reserved codes (42_controller R76, R83 to
R85). -/

namespace Sys2Proof.Machine

/-- A core operation whose only write is `PHASE <- p`, its own code: from a state in that phase no
state changes. -/
def hold (p : OpCode) (s : State) : Host.Outcome State Fault Refusal :=
  complete s (.ok { s with phase := p })

/-- A core operation of a reserved code: `raise Fault(ILLEGAL_PHASE, -)` (30_encoding R52). -/
def illegalPhase (s : State) : Host.Outcome State Fault Refusal := complete s (.error .illegalPhase)

/-- IDLE (42_controller R76): `PHASE <- IDLE`, no state changes. -/
def execIdle (s : State) : Host.Outcome State Fault Refusal := hold phaseIdle s

/-- DONE (42_controller R83): `PHASE <- DONE`, no state changes; the result stays in `H`. -/
def execDone (s : State) : Host.Outcome State Fault Refusal := hold phaseDone s

/-- FAULT (42_controller R84): `PHASE <- FAULT`, no state changes; only reset leaves it. -/
def execFault (s : State) : Host.Outcome State Fault Refusal := hold phaseFault s

/-- Reserved code 9 (42_controller R85). -/
def execReserved9 (s : State) : Host.Outcome State Fault Refusal := illegalPhase s

/-- Reserved codes 10 and 11 (42_controller R85). -/
def execReserved10to11 (s : State) : Host.Outcome State Fault Refusal := illegalPhase s

/-- Reserved codes 12 to 15 (42_controller R85). -/
def execReserved12to15 (s : State) : Host.Outcome State Fault Refusal := illegalPhase s

end Sys2Proof.Machine
end

