-- ==== Sys2Proof/Machine/Dispatch.lean ====
section
/-! DEFINITION. One arm per operation: its meaning. -/

namespace Sys2Proof.Machine

-- The core step's choice of operation (42_controller R73).
def exec (i : Instr) (s : State) : Host.Outcome State Fault Refusal :=
  match i with
  | .idle => Sys2Proof.Machine.execIdle s
  | .init => Sys2Proof.Machine.execInit s
  | .blkb => Sys2Proof.Machine.execBlkb s
  | .blka => Sys2Proof.Machine.execBlka s
  | .midb => Sys2Proof.Machine.execMidb s
  | .taila => Sys2Proof.Machine.execTaila s
  | .final => Sys2Proof.Machine.execFinal s
  | .done => Sys2Proof.Machine.execDone s
  | .fault => Sys2Proof.Machine.execFault s
  | .reserved9 => Sys2Proof.Machine.execReserved9 s
  | .reserved10to11 _ => Sys2Proof.Machine.execReserved10to11 s
  | .reserved12to15 _ => Sys2Proof.Machine.execReserved12to15 s

end Sys2Proof.Machine
end

