-- ==== Sys2Proof/Machine/Flags.lean ====
section
/-! DEFINITION. The status bits. No operation writes a flag (10_state R28); `BUSY`, `DONE` and `FAULT`
are computed from `PHASE`, and `STATUS` from `PHASE` and `CAUSE` (10_state R23). -/

namespace Sys2Proof.Machine

/-- "`BUSY` means `PHASE` is in 1..6" (10_state R19). -/
def busy (s : State) : Bool := decide (phaseInit ≤ s.phase) && decide (s.phase ≤ phaseFinal)

/-- The level output `done` and the field `STATUS[1]` (10_state R23; 60_exceptions R106). -/
def doneLevel (s : State) : Bool := s.phase == phaseDone

/-- The level output `fault` and the field `STATUS[2]` (10_state R23; 60_exceptions R106). -/
def faultLevel (s : State) : Bool := s.phase == phaseFault

/-- `STATUS` as read: `zext_64({PHASE[3:0], 0b00, CAUSE[1:0], 0b0, FAULT, DONE, BUSY})`
(43_host R93). -/
def statusWord (s : State) : Word :=
  (s.phase ++ 0#2 ++ s.cause ++ 0#1 ++ BitVec.ofBool (faultLevel s) ++ BitVec.ofBool (doneLevel s)
    ++ BitVec.ofBool (busy s)).setWidth 64

end Sys2Proof.Machine
end

