-- ==== Sys2Proof/Machine/HostPort.lean ====
section
/-! DEFINITION. The steps of the host and of the buffer's owner (43_host R90 to R99; 70_reset R115).
No host step raises a fault in the core (R90). -/

namespace Sys2Proof.Machine

/-- The host receives `v` from a read of register `num` (30_encoding R49). -/
def State.reply (s : State) (num : Nat) (v : Word) : State :=
  { s with replies := ⟨num, v⟩ :: s.replies }

/-- The host receives an unspecified value from a read of register `num`: the next free value
(10_state R24, R25; log 4). -/
def State.replyFree (s : State) (num : Nat) : State :=
  { s.reply num (Config.unspecified s.freeIndex) with freeIndex := s.freeIndex + 1 }

/-- `WR SEED, v` (43_host R91): ignored while `BUSY`. -/
def writeSeed (v : Word) (s : State) : State := if busy s then s else { s with seed := v }

/-- `WR LENGTH, v` (43_host R91): ignored while `BUSY`. -/
def writeLength (v : Word) (s : State) : State := if busy s then s else { s with length := v }

/-- `WR CTRL, v` (43_host R92): a write with bit 0 set is START, accepted in `IDLE` and `DONE` and
ignored in every other phase; bits 63:1 are ignored. -/
def writeCtrl (v : Word) (s : State) : State :=
  if v.getLsbD 0 && (s.phase == phaseIdle || s.phase == phaseDone) then
    { s with phase := phaseInit }
  else s

/-- `RD RESULT` (43_host R94). -/
def readResult (s : State) : State :=
  if s.phase = phaseDone then s.reply 4 s.h else s.replyFree 4

/-- `RD FADDR` (43_host R95). -/
def readFaddr (s : State) : State :=
  if s.cause = causeMem then s.reply 5 s.faddr else s.replyFree 5

/-- `WR num, v` (43_host R91, R92, R95): writes of the read-only registers are ignored; a number
outside 0..5 is refused (R99). -/
def hostWrite (num : Nat) (v : Word) (s : State) : Host.Outcome State Fault Refusal :=
  match num with
  | 0 => .next (writeSeed v s)
  | 1 => .next (writeLength v s)
  | 2 => .next (writeCtrl v s)
  | 3 => .next s
  | 4 => .next s
  | 5 => .next s
  | n + 6 => .refused (.noSuchHostRegister (n + 6))

/-- `RD num` (43_host R93 to R95); a number outside 0..5 is refused (R99). -/
def hostRead (num : Nat) (s : State) : Host.Outcome State Fault Refusal :=
  match num with
  | 0 => .next (s.reply 0 s.seed)
  | 1 => .next (s.reply 1 s.length)
  | 2 => .next (s.reply 2 0#64)
  | 3 => .next (s.reply 3 (statusWord s))
  | 4 => .next (readResult s)
  | 5 => .next (readFaddr s)
  | n + 6 => .refused (.noSuchHostRegister (n + 6))

/-- A step of the host (43_host R90). -/
def hostStep (c : HostStep) (s : State) : Host.Outcome State Fault Refusal :=
  match c with
  | .wr num v => hostWrite num v s
  | .rd num => hostRead num s
  | .reset => .next (applyReset s)

/-- The owner of the buffer makes `DATA[index] = b` readable (43_host R90; 20_memory R33). -/
def placeByte (index : Word) (b : Byte) (s : State) : Host.Outcome State Fault Refusal :=
  .next { s with buffer := s.buffer.place index.toNat b }

/-- The owner of the buffer makes `index` unreadable (20_memory R33). -/
def withdrawByte (index : Word) (s : State) : Host.Outcome State Fault Refusal :=
  .next { s with buffer := s.buffer.withdraw index.toNat }

end Sys2Proof.Machine
end

