-- ==== Sys2Proof/Machine/Step.lean ====
section
/-! DEFINITION. The step: the next move of the schedule, or a core step where none is scheduled. -/

namespace Sys2Proof.Machine

/-- "A core step reads `PHASE`, performs the operation with that code" (42_controller R73). -/
def coreStep (s : State) : Host.Outcome State Fault Refusal := exec (decode (fetch s)) s

/-- One atomic step of the agent that `m` names (00_scope R26). -/
def moveStep (m : Move) (s : State) : Host.Outcome State Fault Refusal :=
  match m with
  | .core => coreStep s
  | .host c => hostStep c s
  | .place index b => placeByte index b s
  | .withdraw index => withdrawByte index s

/-- One step of the whole: the first move of the schedule is taken off it and made; with nothing
scheduled the core moves (00_scope R26; log 6). -/
def step (s : State) : Host.Outcome State Fault Refusal :=
  match s.schedule with
  | [] => coreStep s
  | m :: rest => moveStep m { s with schedule := rest }

/-- `s` with the table word `w` where the next step takes its operation from: in `PHASE`, with no
other agent's move scheduled before it (log 15). -/
def State.withFetchWord (s : State) (_nbits w : Nat) : State := placeFetch s (BitVec.ofNat 4 w)

end Sys2Proof.Machine
end

