-- ==== Sys2Proof/Safety.lean ====
section
/-! DEFINITION. What counts as a sound run of the hasher core: the host's duty towards the buffer, the
invariant of 10_state R15 with the fault record of 60_exceptions R100, and `Hash(d, s)` of
42_controller R87, written over a list of bytes without reference to the machine's memory or state. -/

namespace Sys2Proof.Safety

open Sys2Proof.Machine

/-! ### The buffer -/

/-- The host's duty: "`Readable(i)` for all `i < csr[LENGTH]`" (20_memory R33). -/
def BufferReady (s : State) : Prop := ∀ i < s.length.toNat, s.buffer.readable i = true

/-- `DATA[0 .. LENGTH-1]`, the input of the run (20_memory R31); meaningful where `BufferReady`. -/
def inputData (s : State) : List Byte :=
  (List.range s.length.toNat).map fun i => (s.buffer.read i).getD 0#8

/-- The bytes `bs` stand in the buffer from index `a` on. -/
def Holds (m : Memory) (a : Nat) (bs : List Byte) : Prop :=
  ∀ j (h : j < bs.length), m.read (a + j) = some bs[j]

/-- Every one of the `n` bytes from index `a` on is readable. -/
def AllReadable (m : Memory) (a n : Nat) : Prop := ∀ j < n, m.readable (a + j) = true

/-! ### The invariant -/

/-- `POS`, `LEN` and `LENGTH` in the `BUSY` phases (10_state R15) with the range of `LEN` in each
(42_controller R74). -/
def PositionInv (s : State) : Prop :=
  (s.phase = phaseBlkb → s.pos.toNat + s.len.toNat = s.length.toNat ∧ s.pos.toNat % 16 = 0 ∧
    16 ≤ s.len.toNat) ∧
  (s.phase = phaseBlka → s.pos.toNat + s.len.toNat = s.length.toNat + 8 ∧ s.pos.toNat % 16 = 8 ∧
    16 ≤ s.len.toNat) ∧
  (s.phase = phaseMidb → s.pos.toNat + s.len.toNat = s.length.toNat ∧ s.pos.toNat % 8 = 0 ∧
    8 ≤ s.len.toNat ∧ s.len.toNat ≤ 15) ∧
  (s.phase = phaseTaila → s.pos.toNat + s.len.toNat = s.length.toNat ∧ s.pos.toNat % 8 = 0 ∧
    1 ≤ s.len.toNat ∧ s.len.toNat ≤ 7) ∧
  (s.phase = phaseFinal → s.pos.toNat + s.len.toNat = s.length.toNat ∧ s.pos.toNat % 8 = 0 ∧
    s.len.toNat ≤ 7)

/-- `CAUSE` records `MEM` in `FAULT` and `NONE` in every other phase: the other two causes are
unreachable (60_exceptions R102). -/
def CauseInv (s : State) : Prop :=
  (s.phase = phaseFault ∧ s.cause = causeMem) ∨ (s.phase < phaseFault ∧ s.cause = causeNone)

/-- What holds after reset and is kept by every step of every agent. -/
def StateInv (s : State) : Prop := PositionInv s ∧ CauseInv s ∧ s.buffer.wf = true

/-- A move that leaves the run of a `BUSY` core alone: the core's own steps, host reads and host
writes. Reset and changes of the buffer are the others (70_reset R116, R120). -/
def quietMove : Move → Bool
  | .core => true
  | .host (.wr _ _) => true
  | .host (.rd _) => true
  | .host .reset => false
  | .place _ _ => false
  | .withdraw _ => false

/-- The next step is not a reset and not a change of the buffer. -/
def QuietNext (s : State) : Prop := ∀ m ∈ s.schedule.head?, quietMove m = true

/-- The next step is not a reset. -/
def NoResetNext (s : State) : Prop := s.schedule.head? ≠ some (.host .reset)

/-! ### The function a run computes (42_controller R87) -/

/-- The little-endian value of a list of bytes. -/
def leValue : List Byte → Nat
  | [] => 0
  | b :: bs => b.toNat + 256 * leValue bs

/-- `u64(d, i)`: the little-endian value of `d[i..i+7]`. -/
def u64 (d : List Byte) (i : Nat) : Word := BitVec.ofNat 64 (leValue ((d.drop i).take 8))

/-- The 1 to 7 bytes of a tail as the hardware packs them (40_extract R58): up to four bytes are
little-endian; of more, the first four stand above the rest. -/
def tailValue (bs : List Byte) : Word :=
  if bs.length ≤ 4 then BitVec.ofNat 64 (leValue bs)
  else BitVec.ofNat 64 (leValue (bs.take 4) * 256 ^ (bs.length - 4) + leValue (bs.drop 4))

/-- One fold with `N`: `h ^= lo; k ^= hi`. -/
def mixN (x : Word) (hk : Word × Word) : Word × Word :=
  (hk.1 ^^^ productLo x foldN, hk.2 ^^^ productHi x foldN)

/-- One fold with `M`: `k ^= lo; h ^= hi`. -/
def mixM (y : Word) (hk : Word × Word) : Word × Word :=
  (hk.1 ^^^ productHi y foldM, hk.2 ^^^ productLo y foldM)

/-- The loop over 16-byte blocks: `count` of them from index `i` on. -/
def hashBlocks (d : List Byte) : (count : Nat) → (i : Nat) → Word × Word → Word × Word
  | 0, _, hk => hk
  | count + 1, i, hk => hashBlocks d count (i + 16) (mixM (u64 d (i + 8)) (mixN (u64 d i) hk))

/-- The finalisation. -/
def hashFinal (hk : Word × Word) : Word :=
  let r := mixN (hk.1 ^^^ (hk.2 + foldN)) hk
  r.1 ^^^ r.2

/-- The step for a tail of `n` bytes from index `i` on, and the finalisation. -/
def hashTail (d : List Byte) (i n : Nat) (hk : Word × Word) : Word :=
  hashFinal (if 0 < n then mixM (tailValue ((d.drop i).take n)) hk else hk)

/-- The step for at most one 8-byte block, and the rest. -/
def hashMid (d : List Byte) (i n : Nat) (hk : Word × Word) : Word :=
  if 8 ≤ n then hashTail d (i + 8) (n - 8) (mixN (u64 d i) hk) else hashTail d i n hk

/-- The hash of the `n` bytes left from index `i` on, from the accumulators `hk`. -/
def hashFrom (d : List Byte) (i n : Nat) (hk : Word × Word) : Word :=
  hashMid d (i + 16 * (n / 16)) (n % 16) (hashBlocks d (n / 16) i hk)

/-- `Hash(d, s)` (42_controller R87). -/
def hashOf (d : List Byte) (seed : Word) : Word :=
  hashFrom d 0 d.length (seed, BitVec.ofNat 64 d.length + seed + foldN)

/-- The hash value that the run in progress will deliver, read off a state: what is left of
`Hash(d, s)` from the phase the core is in. In `DONE` it is `H`. -/
def pendingResult (s : State) : Word :=
  if s.phase = phaseInit then hashOf (inputData s) s.seed
  else if s.phase = phaseBlka then
    hashFrom (inputData s) (s.pos.toNat + 8) (s.len.toNat - 16)
      (mixM (u64 (inputData s) s.pos.toNat) (s.h, s.k))
  else if s.phase = phaseFinal then hashFinal (s.h, s.k)
  else if s.phase = phaseDone then s.h
  else hashFrom (inputData s) s.pos.toNat s.len.toNat (s.h, s.k)

/-- "The number of core steps from `PHASE = INIT` to `PHASE = DONE`" for a `LENGTH` of `n`
(42_controller R86). -/
def runSteps (n : Nat) : Nat :=
  2 + 2 * (n / 16) + (if 8 ≤ n % 16 then 1 else 0) + (if n % 8 ≠ 0 then 1 else 0)

end Sys2Proof.Safety
end

