-- ==== Sys2Proof/Certificates/Slice0/Obligations.lean ====
section
/-! DEFINITION. The statements for the provers. Each docstring names the rule of spec/ it formalises.
A clause that is the model's own choice says so and names the log entry. -/

section

open Sys2Proof Sys2Proof.Machine Sys2Proof.Safety

/-! ### Encoding (30_encoding) -/

/-- Decode and encode agree on every well-formed operation and on every code (30_encoding R51). That
a reserved row carries its code is the model's choice (log 14). -/
def Obligations.DecodeAndEncodeAgree : Prop :=
  (∀ i : Instr, i.wellFormed = true → decode (encode i) = i) ∧
    ∀ op : OpCode, (decode op).wellFormed = true ∧ encode (decode op) = op

/-- The opcode map of format `P`, code by code (30_encoding R51). -/
def Obligations.OpcodeMapOfFormatP : Prop :=
  decode 0b0000#4 = .idle ∧ decode 0b0001#4 = .init ∧ decode 0b0010#4 = .blkb ∧
  decode 0b0011#4 = .blka ∧ decode 0b0100#4 = .midb ∧ decode 0b0101#4 = .taila ∧
  decode 0b0110#4 = .final ∧ decode 0b0111#4 = .done ∧ decode 0b1000#4 = .fault ∧
  decode 0b1001#4 = .reserved9 ∧
  (∀ op : OpCode, op = 0b1010#4 ∨ op = 0b1011#4 → decode op = .reserved10to11 op) ∧
  ∀ op : OpCode, 0b1100#4 ≤ op → decode op = .reserved12to15 op

/-- A stored table word is its low four bits, every further bit 0; any other word is rejected. The
rejection is the model's choice (log 14). -/
def Obligations.TableWordsDecode : Prop :=
  (∀ op : OpCode, decodeTableWord 8 op.toNat = some (decode op)) ∧
    (∀ nbits w, 16 ≤ w → decodeTableWord nbits w = none) ∧
    ∀ nbits w, nbits < 4 → decodeTableWord nbits w = none

/-! ### The step (42_controller R73, 00_scope R26) -/

/-- A step runs the operation that `PHASE` decodes to: at once where nothing is scheduled, and on the
state with the core's turn taken off the schedule where the schedule names the core (log 6). -/
def Obligations.StepRunsDecodedOperation : Prop :=
  ∀ (s : State) (i : Instr), decode s.phase = i →
    (s.schedule = [] → step s = exec i s) ∧
    ∀ rest, s.schedule = .core :: rest → step s = exec i { s with schedule := rest }

/-- A step makes the scheduled move of another agent (00_scope R26). The schedule is the model's
choice (log 6). -/
def Obligations.StepMakesScheduledMove : Prop :=
  ∀ (s : State) (rest : List Move),
    (∀ c, s.schedule = .host c :: rest → step s = hostStep c { s with schedule := rest }) ∧
    (∀ index b, s.schedule = .place index b :: rest →
      step s = placeByte index b { s with schedule := rest }) ∧
    ∀ index, s.schedule = .withdraw index :: rest →
      step s = withdrawByte index { s with schedule := rest }

/-- Every operation ends in a next state, whatever the state it starts from: "a core step is always
enabled" (42_controller R73). -/
def Obligations.CoreStepIsAlwaysEnabled : Prop :=
  ∀ (i : Instr) (s : State), ∃ t, exec i s = .next t

/-! ### The operations (42_controller R76 to R85) -/

/-- IDLE, DONE and FAULT write their own code into `PHASE` and nothing else, so each leaves a state
in its own phase as it is (42_controller R76, R83, R84). -/
def Obligations.WaitingOperationsChangeNothing : Prop :=
  ∀ s : State,
    exec .idle s = .next { s with phase := 0#4 } ∧
    exec .done s = .next { s with phase := 7#4 } ∧
    exec .fault s = .next { s with phase := 8#4 } ∧
    (s.phase = 0#4 → exec .idle s = .next s) ∧
    (s.phase = 7#4 → exec .done s = .next s) ∧
    (s.phase = 8#4 → exec .fault s = .next s)

/-- A reserved code takes `Fault(ILLEGAL_PHASE)`: `PHASE` and `CAUSE` are written and nothing else
changes (42_controller R85). -/
def Obligations.ReservedCodesRaiseIllegalPhase : Prop :=
  ∀ s : State,
    exec .reserved9 s = .next { s with phase := 8#4, cause := 2#2 } ∧
    (∀ op, exec (.reserved10to11 op) s = .next { s with phase := 8#4, cause := 2#2 }) ∧
    (∀ op, exec (.reserved12to15 op) s = .next { s with phase := 8#4, cause := 2#2 }) ∧
    ∀ op : OpCode, 9#4 ≤ op → exec (decode op) s = .next { s with phase := 8#4, cause := 2#2 }

/-- INIT loads the four working registers and dispatches on `LENGTH` (42_controller R77). -/
def Obligations.InitLoadsRegisters : Prop :=
  ∀ s : State, exec .init s = .next { s with
    h := s.seed
    k := s.length + s.seed + 0x8a970be7488fda55#64
    pos := 0#64
    len := s.length
    phase := dispatch s.length }

/-- BLKB on every state whose 8 bytes do not run past the last index (no run meets the rest; log 2):
it folds the 8 bytes at `POS` with `N` and goes to BLKA, or raises `CONTRACT` where `LEN < 16`, or
`MEM` with the index of the first refused read (42_controller R78). -/
def Obligations.BlkbFoldsFirstHalf : Prop :=
  ∀ s : State,
    (∀ bs : List Byte, 16 ≤ s.len.toNat → s.pos.toNat + 8 ≤ 2 ^ 64 →
      bs.length = 8 → Holds s.buffer s.pos.toNat bs →
      exec .blkb s = .next { s with
        h := s.h ^^^ productLo (BitVec.ofNat 64 (leValue bs)) 0x8a970be7488fda55#64
        k := s.k ^^^ productHi (BitVec.ofNat 64 (leValue bs)) 0x8a970be7488fda55#64
        pos := s.pos + 8#64
        phase := 3#4 }) ∧
    (s.len.toNat < 16 → exec .blkb s = .next { s with phase := 8#4, cause := 3#2 }) ∧
    (16 ≤ s.len.toNat → s.pos.toNat + 8 ≤ 2 ^ 64 → ¬ AllReadable s.buffer s.pos.toNat 4 →
      exec .blkb s = .next { s with phase := 8#4, cause := 1#2, faddr := s.pos }) ∧
    (16 ≤ s.len.toNat → s.pos.toNat + 8 ≤ 2 ^ 64 → AllReadable s.buffer s.pos.toNat 4 →
      ¬ AllReadable s.buffer (s.pos.toNat + 4) 4 →
      exec .blkb s = .next { s with phase := 8#4, cause := 1#2, faddr := s.pos + 4#64 })

/-- BLKA on every state whose 8 bytes do not run past the last index (no run meets the rest; log 2):
it folds the 8 bytes at `POS` with `M`, takes 16 off `LEN` and dispatches on what is left, or raises
`CONTRACT` where `LEN < 16`, or `MEM` (42_controller R79). -/
def Obligations.BlkaFoldsSecondHalf : Prop :=
  ∀ s : State,
    (∀ bs : List Byte, 16 ≤ s.len.toNat → s.pos.toNat + 8 ≤ 2 ^ 64 →
      bs.length = 8 → Holds s.buffer s.pos.toNat bs →
      exec .blka s = .next { s with
        k := s.k ^^^ productLo (BitVec.ofNat 64 (leValue bs)) 0x95b47aa3355ba1a1#64
        h := s.h ^^^ productHi (BitVec.ofNat 64 (leValue bs)) 0x95b47aa3355ba1a1#64
        pos := s.pos + 8#64
        len := s.len - 16#64
        phase := dispatch (s.len - 16#64) }) ∧
    (s.len.toNat < 16 → exec .blka s = .next { s with phase := 8#4, cause := 3#2 }) ∧
    (16 ≤ s.len.toNat → s.pos.toNat + 8 ≤ 2 ^ 64 → ¬ AllReadable s.buffer s.pos.toNat 4 →
      exec .blka s = .next { s with phase := 8#4, cause := 1#2, faddr := s.pos }) ∧
    (16 ≤ s.len.toNat → s.pos.toNat + 8 ≤ 2 ^ 64 → AllReadable s.buffer s.pos.toNat 4 →
      ¬ AllReadable s.buffer (s.pos.toNat + 4) 4 →
      exec .blka s = .next { s with phase := 8#4, cause := 1#2, faddr := s.pos + 4#64 })

/-- MIDB on every state whose 8 bytes do not run past the last index (no run meets the rest; log 2):
it folds the 8 bytes at `POS` with `N`, takes 8 off `LEN` and dispatches on what is left, or raises
`CONTRACT` unless `8 <= LEN <= 15`, or `MEM` (42_controller R80). -/
def Obligations.MidbFoldsMidBlock : Prop :=
  ∀ s : State,
    (∀ bs : List Byte, 8 ≤ s.len.toNat → s.len.toNat ≤ 15 →
      s.pos.toNat + 8 ≤ 2 ^ 64 → bs.length = 8 → Holds s.buffer s.pos.toNat bs →
      exec .midb s = .next { s with
        h := s.h ^^^ productLo (BitVec.ofNat 64 (leValue bs)) 0x8a970be7488fda55#64
        k := s.k ^^^ productHi (BitVec.ofNat 64 (leValue bs)) 0x8a970be7488fda55#64
        pos := s.pos + 8#64
        len := s.len - 8#64
        phase := dispatch (s.len - 8#64) }) ∧
    (s.len.toNat < 8 ∨ 15 < s.len.toNat →
      exec .midb s = .next { s with phase := 8#4, cause := 3#2 }) ∧
    (8 ≤ s.len.toNat → s.len.toNat ≤ 15 → s.pos.toNat + 8 ≤ 2 ^ 64 →
      ¬ AllReadable s.buffer s.pos.toNat 4 →
      exec .midb s = .next { s with phase := 8#4, cause := 1#2, faddr := s.pos }) ∧
    (8 ≤ s.len.toNat → s.len.toNat ≤ 15 → s.pos.toNat + 8 ≤ 2 ^ 64 →
      AllReadable s.buffer s.pos.toNat 4 → ¬ AllReadable s.buffer (s.pos.toNat + 4) 4 →
      exec .midb s = .next { s with phase := 8#4, cause := 1#2, faddr := s.pos + 4#64 })

/-- TAILA on every state whose tail does not run past the last index (no run meets the rest; log 2):
it folds the `LEN` bytes at `POS`, packed as 40_extract R58 packs them, with `M` and goes to FINAL
with `POS` and `LEN` as they are, or raises `CONTRACT` unless `1 <= LEN <= 7`, or `MEM` with the index
of the first refused read (42_controller R81). -/
def Obligations.TailaFoldsTail : Prop :=
  ∀ s : State,
    (∀ bs : List Byte, 1 ≤ s.len.toNat → s.len.toNat ≤ 7 →
      s.pos.toNat + s.len.toNat ≤ 2 ^ 64 → bs.length = s.len.toNat →
      Holds s.buffer s.pos.toNat bs →
      exec .taila s = .next { s with
        k := s.k ^^^ productLo (tailValue bs) 0x95b47aa3355ba1a1#64
        h := s.h ^^^ productHi (tailValue bs) 0x95b47aa3355ba1a1#64
        phase := 6#4 }) ∧
    (s.len.toNat = 0 ∨ 7 < s.len.toNat →
      exec .taila s = .next { s with phase := 8#4, cause := 3#2 }) ∧
    (1 ≤ s.len.toNat → s.len.toNat ≤ 7 → s.pos.toNat + s.len.toNat ≤ 2 ^ 64 →
      ¬ AllReadable s.buffer s.pos.toNat (min s.len.toNat 4) →
      exec .taila s = .next { s with phase := 8#4, cause := 1#2, faddr := s.pos }) ∧
    (5 ≤ s.len.toNat → s.len.toNat ≤ 7 → s.pos.toNat + s.len.toNat ≤ 2 ^ 64 →
      AllReadable s.buffer s.pos.toNat 4 →
      ¬ AllReadable s.buffer (s.pos.toNat + 4) (s.len.toNat - 4) →
      exec .taila s = .next { s with phase := 8#4, cause := 1#2, faddr := s.pos + 4#64 })

/-- FINAL folds `H ^ (K + N)` with `N`, XORs the new `K` into the new `H` and goes to DONE
(42_controller R82). -/
def Obligations.FinalMixesAccumulators : Prop :=
  ∀ s : State, ∀ x h1 k1 : Word,
    x = s.h ^^^ (s.k + 0x8a970be7488fda55#64) →
    h1 = s.h ^^^ productLo x 0x8a970be7488fda55#64 →
    k1 = s.k ^^^ productHi x 0x8a970be7488fda55#64 →
    exec .final s = .next { s with k := k1, h := h1 ^^^ k1, phase := 7#4 }

/-- `Dispatch(l)` by the length left (42_controller R75). -/
def Obligations.DispatchByLength : Prop :=
  ∀ l : Word,
    (16 ≤ l.toNat → dispatch l = 2#4) ∧
    (8 ≤ l.toNat → l.toNat < 16 → dispatch l = 4#4) ∧
    (0 < l.toNat → l.toNat < 8 → dispatch l = 5#4) ∧
    (l.toNat = 0 → dispatch l = 6#4)

/-! ### Frames of the core's operations (10_state R14, 60_exceptions R103) -/

/-- What no operation writes, and what only the operations of the access table write (10_state R14):
`SEED`, `LENGTH` and every byte of the buffer are never written; `H` and `K` only by the six hashing
operations, `POS` only by INIT, BLKB, BLKA and MIDB, `LEN` only by INIT, BLKA and MIDB; `CAUSE` and
`FADDR` only by an operation that ends in `FAULT`. -/
def Obligations.OperationsWriteOnlyTheirRegisters : Prop :=
  ∀ (i : Instr) (s t : State), exec i s = .next t →
    (t.seed = s.seed ∧ t.length = s.length ∧ (∀ a, t.buffer.read a = s.buffer.read a) ∧
      t.buffer = s.buffer ∧ t.schedule = s.schedule ∧ t.replies = s.replies ∧
      t.freeIndex = s.freeIndex) ∧
    (i ∉ [Instr.init, .blkb, .blka, .midb, .taila, .final] → t.h = s.h ∧ t.k = s.k) ∧
    (i ∉ [Instr.init, .blkb, .blka, .midb] → t.pos = s.pos) ∧
    (i ∉ [Instr.init, .blka, .midb] → t.len = s.len) ∧
    (t.phase ≠ 8#4 → t.cause = s.cause ∧ t.faddr = s.faddr)

/-- Fault entry writes `PHASE`, `CAUSE` and, for `MEM` alone, `FADDR`; and an operation that ends in
`FAULT` does fault entry in place of every register write: the state after it is the state before it
with those registers written (60_exceptions R103). The operation FAULT itself raises nothing and is
left out. -/
def Obligations.FaultEntryReplacesEveryWrite : Prop :=
  (∀ (s t : State) (addr : Word),
    complete s (.error (.mem addr)) =
      .next { s with phase := 8#4, cause := 1#2, faddr := addr } ∧
    complete s (.error .illegalPhase) = .next { s with phase := 8#4, cause := 2#2 } ∧
    complete s (.error .contract) = .next { s with phase := 8#4, cause := 3#2 } ∧
    complete s (.ok t) = .next t) ∧
  ∀ (i : Instr) (s t : State), i ≠ .fault → exec i s = .next t → t.phase = 8#4 →
    (∃ addr, t = { s with phase := 8#4, cause := 1#2, faddr := addr }) ∨
    t = { s with phase := 8#4, cause := 2#2 } ∨
    t = { s with phase := 8#4, cause := 3#2 }

/-- INIT gives the same state from any values of `H`, `K`, `POS`, `LEN`: no value left by an earlier
run or by reset reaches a later result (10_state R14). -/
def Obligations.InitForgetsWorkingRegisters : Prop :=
  ∀ (s : State) (h k pos len : Word),
    exec .init { s with h := h, k := k, pos := pos, len := len } = exec .init s

/-! ### The word extractor (40_extract R55 to R58) -/

/-- `GET32` and `GETP32` read their bytes little-endian and zero-extended, refuse with the index they
were given, and `GETP32` raises `CONTRACT` outside 1..3 (40_extract R55, R56). -/
def Obligations.WordReadsAreLittleEndian : Prop :=
  ∀ (m : Memory) (index : Word),
    (∀ bs : List Byte, index.toNat + 4 ≤ 2 ^ 64 → bs.length = 4 → Holds m index.toNat bs →
      get32 m index = .ok (BitVec.ofNat 32 (leValue bs)) ∧ leValue bs < 2 ^ 32) ∧
    (index.toNat + 4 ≤ 2 ^ 64 → ¬ AllReadable m index.toNat 4 →
      get32 m index = .error (.mem index)) ∧
    (∀ bs : List Byte, 1 ≤ bs.length → bs.length ≤ 3 → index.toNat + bs.length ≤ 2 ^ 64 →
      Holds m index.toNat bs →
      getP32 m index bs.length = .ok (BitVec.ofNat 32 (leValue bs)) ∧
        leValue bs < 2 ^ (8 * bs.length)) ∧
    (∀ n, 1 ≤ n → n ≤ 3 → index.toNat + n ≤ 2 ^ 64 → ¬ AllReadable m index.toNat n →
      getP32 m index n = .error (.mem index)) ∧
    ∀ n, n < 1 ∨ 3 < n → getP32 m index n = .error .contract

/-- `GET64` is the little-endian value of the 8 bytes, read as two 4-byte reads of which the first
refused one is reported (40_extract R57). -/
def Obligations.Get64IsLittleEndian : Prop :=
  ∀ (m : Memory) (index : Word), index.toNat + 8 ≤ 2 ^ 64 →
    (∀ bs : List Byte, bs.length = 8 → Holds m index.toNat bs →
      get64 m index = .ok (BitVec.ofNat 64 (leValue bs))) ∧
    (¬ AllReadable m index.toNat 4 → get64 m index = .error (.mem index)) ∧
    (AllReadable m index.toNat 4 → ¬ AllReadable m (index.toNat + 4) 4 →
      get64 m index = .error (.mem (index + 4#64)))

/-- `GETP64` byte by byte: 1 to 4 bytes are little-endian, of 5 to 7 the first four stand above the
rest; bits 63..56 are zero; outside 1..7 it raises `CONTRACT`; the first refused read is reported
(40_extract R58). -/
def Obligations.GetP64PacksTheTail : Prop :=
  ∀ (m : Memory) (index : Word),
    (∀ bs : List Byte, 1 ≤ bs.length → bs.length ≤ 4 → index.toNat + bs.length ≤ 2 ^ 64 →
      Holds m index.toNat bs →
      getP64 m index bs.length = .ok (BitVec.ofNat 64 (leValue bs)) ∧ leValue bs < 2 ^ 32) ∧
    (∀ b0 b1 b2 b3 b4 : Byte, index.toNat + 5 ≤ 2 ^ 64 →
      Holds m index.toNat [b0, b1, b2, b3, b4] →
      getP64 m index 5 = .ok (0#24 ++ b3 ++ b2 ++ b1 ++ b0 ++ b4)) ∧
    (∀ b0 b1 b2 b3 b4 b5 : Byte, index.toNat + 6 ≤ 2 ^ 64 →
      Holds m index.toNat [b0, b1, b2, b3, b4, b5] →
      getP64 m index 6 = .ok (0#16 ++ b3 ++ b2 ++ b1 ++ b0 ++ b5 ++ b4)) ∧
    (∀ b0 b1 b2 b3 b4 b5 b6 : Byte, index.toNat + 7 ≤ 2 ^ 64 →
      Holds m index.toNat [b0, b1, b2, b3, b4, b5, b6] →
      getP64 m index 7 = .ok (0#8 ++ b3 ++ b2 ++ b1 ++ b0 ++ b6 ++ b5 ++ b4)) ∧
    (∀ n, n < 1 ∨ 7 < n → getP64 m index n = .error .contract) ∧
    (∀ n, 1 ≤ n → n ≤ 7 → index.toNat + n ≤ 2 ^ 64 → ¬ AllReadable m index.toNat (min n 4) →
      getP64 m index n = .error (.mem index)) ∧
    ∀ n, 5 ≤ n → n ≤ 7 → index.toNat + n ≤ 2 ^ 64 → AllReadable m index.toNat 4 →
      ¬ AllReadable m (index.toNat + 4) (n - 4) →
      getP64 m index n = .error (.mem (index + 4#64))

/-- A `MemRead` that reaches the end of the index space goes on at index 0. This is the model's
reading of R7's wrapping `+` in the indices of 20_memory R33 (log 2); no run meets it. -/
def Obligations.ReadsWrapAtTheLastIndex : Prop :=
  ∀ (m : Memory) (index : Word) (n : Nat) (bs : List Byte), memRead m index n = .ok bs ↔
    bs.length = n ∧
      ∀ j (h : j < bs.length), m.read ((index.toNat + j) % 2 ^ 64) = some bs[j]

/-! ### The multiply-fold unit (41_fold R64 to R72) -/

/-- The low word of the product is exact (41_fold R65). -/
def Obligations.ProductLowWordIsExact : Prop :=
  ∀ a b : Word, productLo a b = a * b

/-- The high word of the product is the integer product's high word less two terms, so it equals it
exactly where those two are 0; with `M` or `N` and a low half of 2 or more it differs, as the two smallest
illustrations show (41_fold R66). -/
def Obligations.ProductHighWordLacksTwoTerms : Prop :=
  (∀ a b : Word, a.toNat * b.toNat / 2 ^ 64 = (productHi a b).toNat +
    (a.toNat / 2 ^ 32 * (b.toNat % 2 ^ 32)) / 2 ^ 32 +
    (a.toNat % 2 ^ 32 * (b.toNat / 2 ^ 32)) / 2 ^ 32) ∧
  (∀ a b : Word, (productHi a b).toNat = a.toNat * b.toNat / 2 ^ 64 ↔
    a.toNat / 2 ^ 32 * (b.toNat % 2 ^ 32) < 2 ^ 32 ∧
    a.toNat % 2 ^ 32 * (b.toNat / 2 ^ 32) < 2 ^ 32) ∧
  (∀ a : Word, 2 ≤ a.toNat % 2 ^ 32 →
    (productHi a 0x95b47aa3355ba1a1#64).toNat ≠ a.toNat * 0x95b47aa3355ba1a1 / 2 ^ 64 ∧
    (productHi a 0x8a970be7488fda55#64).toNat ≠ a.toNat * 0x8a970be7488fda55 / 2 ^ 64) ∧
  productHi 9#64 0x95b47aa3355ba1a1#64 = 0#64 ∧ 9 * 0x95b47aa3355ba1a1 / 2 ^ 64 = 5 ∧
  productHi 0x8000000000000000#64 2#64 = 0#64 ∧ 0x8000000000000000 * 2 / 2 ^ 64 = 1

/-- No addition or shift in the product wraps: evaluated in unbounded integers it gives the same two
words, within the stated bounds (41_fold R70). -/
def Obligations.ProductNeverWraps : Prop :=
  ∀ (a b : Word) (aL aH bL bH r1 r2 r3 rM : Nat),
    aL = a.toNat % 2 ^ 32 → aH = a.toNat / 2 ^ 32 → bL = b.toNat % 2 ^ 32 →
    bH = b.toNat / 2 ^ 32 → r1 = aL * bL → r2 = aH * bL → r3 = aL * bH →
    rM = r1 / 2 ^ 32 + r2 % 2 ^ 32 + r3 % 2 ^ 32 →
    r1 ≤ 2 ^ 64 - 2 ^ 33 + 1 ∧ r2 ≤ 2 ^ 64 - 2 ^ 33 + 1 ∧ r3 ≤ 2 ^ 64 - 2 ^ 33 + 1 ∧
    aH * bH ≤ 2 ^ 64 - 2 ^ 33 + 1 ∧ rM ≤ 3 * (2 ^ 32 - 1) ∧ rM / 2 ^ 32 ≤ 2 ∧
    (productLo a b).toNat = r1 % 2 ^ 32 + rM % 2 ^ 32 * 2 ^ 32 ∧
    (productHi a b).toNat = aH * bH + rM / 2 ^ 32 ∧
    aH * bH + rM / 2 ^ 32 ≤ 2 ^ 64 - 2 ^ 33 + 1 + 2

/-- The corners of the product, and its symmetry (41_fold R72, R64). -/
def Obligations.ProductCorners : Prop :=
  (∀ b : Word, productLo 0#64 b = 0#64 ∧ productHi 0#64 b = 0#64) ∧
  (∀ b : Word, productLo 1#64 b = b ∧ productHi 1#64 b = 0#64) ∧
  (productLo 0xffffffffffffffff#64 0xffffffffffffffff#64 = 1#64 ∧
    productHi 0xffffffffffffffff#64 0xffffffffffffffff#64 = 0xfffffffe00000002#64) ∧
  (productLo 0x100000000#64 0x100000000#64 = 0#64 ∧
    productHi 0x100000000#64 0x100000000#64 = 1#64) ∧
  (productLo 0x8000000000000000#64 0x8000000000000000#64 = 0#64 ∧
    productHi 0x8000000000000000#64 0x8000000000000000#64 = 0x4000000000000000#64) ∧
  ∀ a b : Word, productLo a b = productLo b a ∧ productHi a b = productHi b a

/-- `cwfold` XORs the low word into one accumulator and the high word into the other and changes
nothing else; `cwmixb` does so with `N` into `H`, `K` and `cwmixa` with `M` into `K`, `H`; an operand
`x` of 0 leaves both unchanged (41_fold R67 to R69). -/
def Obligations.FoldXorsIntoAccumulators : Prop :=
  ∀ (s : State) (x y : Word),
    cwfold x y .h .k s = { s with h := s.h ^^^ productLo x y, k := s.k ^^^ productHi x y } ∧
    cwfold x y .k .h s = { s with k := s.k ^^^ productLo x y, h := s.h ^^^ productHi x y } ∧
    cwmixb x s = cwfold x 0x8a970be7488fda55#64 .h .k s ∧
    cwmixa x s = cwfold x 0x95b47aa3355ba1a1#64 .k .h s ∧
    cwfold 0#64 y .h .k s = s ∧ cwfold 0#64 y .k .h s = s

/-! ### Invariants (10_state R15, 60_exceptions R102, 42_controller R87) -/

/-- Every step of every agent keeps `StateInv`: the positions of 10_state R15 with the ranges of `LEN`, a
legal phase whose `CAUSE` agrees with it (60_exceptions R102, R107), and the buffer's canonical form
(log 1). It holds of every state with `StateInv`, reached or not. -/
def Obligations.EveryStepKeepsInv : Prop :=
  ∀ s t : State, StateInv s → step s = .next t → StateInv t

/-- `StateInv` holds after reset: at State.reset and after a `RESET` of any state whose buffer is in
canonical form, whatever the unspecified registers hold. -/
def Obligations.ResetMeetsInv : Prop :=
  StateInv State.reset ∧ ∀ s : State, s.buffer.wf = true → StateInv (applyReset s)

/-- With every byte below `LENGTH` readable, a core step from a state with `StateInv` that is not in
`FAULT` raises no fault at all (20_memory R41, 40_extract R59, 60_exceptions R111). -/
def Obligations.NoFaultUnderHostDuty : Prop :=
  ∀ s : State, StateInv s → BufferReady s → s.phase ≠ 8#4 →
    ∃ t, coreStep s = .next t ∧ t.phase ≠ 8#4 ∧ t.cause = 0#2

/-- The result the run will deliver does not change from step to step: from a `BUSY` state with
`StateInv` whose input is readable, a core step or any host read or write leads to a state that is still
`BUSY` or in `DONE`, whose input is still readable, and whose pending result is the same. In `DONE`
the pending result is `H`, in INIT it is `Hash(d, s)` of the input (42_controller R87, R88). -/
def Obligations.PendingResultIsKept : Prop :=
  ∀ s t : State, StateInv s → BufferReady s → busy s = true → QuietNext s → step s = .next t →
    pendingResult t = pendingResult s ∧ BufferReady t ∧ (busy t = true ∨ t.phase = 7#4)

/-- A run computes `Hash(d, s)` in exactly the stated number of core steps: it is `BUSY` before the
last of them and in `DONE` after it, with the hash in `H` (42_controller R86, R87). -/
def Obligations.RunDeliversHash : Prop :=
  ∀ s : State, s.phase = 1#4 → s.schedule = [] → BufferReady s →
    (∀ n < runSteps s.length.toNat, ∃ u : State,
      Host.Core.run Sys2Proof.core n s = .next u ∧ busy u = true) ∧
    ∃ t : State, Host.Core.run Sys2Proof.core (runSteps s.length.toNat) s = .next t ∧
      t.phase = 7#4 ∧ t.h = hashOf (inputData s) s.seed ∧ t.cause = s.cause ∧ t.faddr = s.faddr ∧
      t.seed = s.seed ∧ t.length = s.length ∧ t.buffer = s.buffer

/-- Bytes at and above `LENGTH`, and whether they are readable, influence no core step
(20_memory R41): with another buffer that agrees below `LENGTH` the step gives the same state. -/
def Obligations.BytesBeyondLengthHaveNoEffect : Prop :=
  ∀ (s t : State) (m : Memory), StateInv s →
    (∀ i < s.length.toNat, m.read i = s.buffer.read i) → coreStep s = .next t →
    coreStep { s with buffer := m } = .next { t with buffer := m }

/-! ### The host's steps (43_host R90 to R99, 10_state R23) -/

/-- `WR SEED` and `WR LENGTH` take effect where the core is not `BUSY` and are dropped where it is
(43_host R91). -/
def Obligations.ArgumentWritesOutsideBusy : Prop :=
  ∀ (s : State) (v : Word),
    (1 ≤ s.phase.toNat ∧ s.phase.toNat ≤ 6 →
      hostStep (.wr 0 v) s = .next s ∧ hostStep (.wr 1 v) s = .next s) ∧
    (s.phase.toNat = 0 ∨ 6 < s.phase.toNat →
      hostStep (.wr 0 v) s = .next { s with seed := v } ∧
      hostStep (.wr 1 v) s = .next { s with length := v })

/-- START: a write of `CTRL` with bit 0 set moves `IDLE` and `DONE` to INIT; every other write of
`CTRL` does nothing (43_host R92). -/
def Obligations.StartFromIdleOrDone : Prop :=
  ∀ (s : State) (v : Word),
    (v.toNat % 2 = 1 → s.phase = 0#4 ∨ s.phase = 7#4 →
      hostStep (.wr 2 v) s = .next { s with phase := 1#4 }) ∧
    (v.toNat % 2 = 0 ∨ (s.phase ≠ 0#4 ∧ s.phase ≠ 7#4) → hostStep (.wr 2 v) s = .next s)

/-- `RD STATUS` returns `PHASE` in bits 11:8, `CAUSE` in bits 5:4, and the bits `FAULT`, `DONE`,
`BUSY`, every other bit 0, and has no side effect (43_host R93). That the value goes to the head of
`replies` is the model's choice (log 7). -/
def Obligations.StatusReadsPhaseAndCause : Prop :=
  ∀ s : State, ∃ v : Word,
    hostStep (.rd 3) s = .next { s with replies := ⟨3, v⟩ :: s.replies } ∧
    v.toNat = 256 * s.phase.toNat + 16 * s.cause.toNat + (if s.phase = 8#4 then 4 else 0) +
      (if s.phase = 7#4 then 2 else 0) +
      (if 1 ≤ s.phase.toNat ∧ s.phase.toNat ≤ 6 then 1 else 0)

/-- At most one of `BUSY`, `DONE`, `FAULT` is 1, and all three are 0 exactly in `IDLE` and in the
reserved phases (10_state R23); the outputs `done` and `fault` are the two `STATUS` bits
(60_exceptions R106). -/
def Obligations.StatusBitsAreExclusive : Prop :=
  ∀ s : State,
    ¬ (busy s = true ∧ doneLevel s = true) ∧ ¬ (busy s = true ∧ faultLevel s = true) ∧
    ¬ (doneLevel s = true ∧ faultLevel s = true) ∧
    (busy s = false ∧ doneLevel s = false ∧ faultLevel s = false ↔
      s.phase = 0#4 ∨ 9 ≤ s.phase.toNat) ∧
    (statusWord s).getLsbD 0 = busy s ∧ (statusWord s).getLsbD 1 = doneLevel s ∧
    (statusWord s).getLsbD 2 = faultLevel s

/-- `RD RESULT` returns `H` in `DONE` and some 64-bit value in every other phase, and has no side
effect on the hardware (43_host R94). The count of free values is the model's (log 4). -/
def Obligations.ResultReadsHInDone : Prop :=
  ∀ s : State,
    (s.phase = 7#4 → hostStep (.rd 4) s = .next { s with replies := ⟨4, s.h⟩ :: s.replies }) ∧
    (s.phase ≠ 7#4 → ∃ v : Word, hostStep (.rd 4) s =
      .next { s with replies := ⟨4, v⟩ :: s.replies, freeIndex := s.freeIndex + 1 })

/-- The remaining accesses: `RD SEED`, `RD LENGTH`, `RD CTRL`, `RD FADDR`, and the ignored writes of
`STATUS`, `RESULT`, `FADDR` (43_host R95). The count of free values is the model's (log 4). -/
def Obligations.RemainingHostAccesses : Prop :=
  ∀ s : State,
    hostStep (.rd 0) s = .next { s with replies := ⟨0, s.seed⟩ :: s.replies } ∧
    hostStep (.rd 1) s = .next { s with replies := ⟨1, s.length⟩ :: s.replies } ∧
    hostStep (.rd 2) s = .next { s with replies := ⟨2, 0#64⟩ :: s.replies } ∧
    (s.cause = 1#2 → hostStep (.rd 5) s = .next { s with replies := ⟨5, s.faddr⟩ :: s.replies }) ∧
    (s.cause ≠ 1#2 → ∃ v : Word, hostStep (.rd 5) s =
      .next { s with replies := ⟨5, v⟩ :: s.replies, freeIndex := s.freeIndex + 1 }) ∧
    ∀ v : Word, hostStep (.wr 3 v) s = .next s ∧ hostStep (.wr 4 v) s = .next s ∧
      hostStep (.wr 5 v) s = .next s

/-- A host access to a register number outside 0..5 is refused (43_host R99). -/
def Obligations.OtherRegisterNumbersAreRefused : Prop :=
  ∀ (s : State) (num : Nat) (v : Word), 6 ≤ num →
    hostStep (.wr num v) s = .refused (.noSuchHostRegister num) ∧
    hostStep (.rd num) s = .refused (.noSuchHostRegister num)

/-- No host step raises a fault or touches the buffer, and none but `RESET` changes `H`, `K`, `POS`,
`LEN`, `CAUSE` or `FADDR` (43_host R90 to R95). -/
def Obligations.HostStepsRaiseNoFault : Prop :=
  ∀ (c : HostStep) (s t : State), hostStep c s = .next t →
    (t.phase = 8#4 → s.phase = 8#4) ∧ t.buffer = s.buffer ∧ t.schedule = s.schedule ∧
    (c ≠ .reset → t.h = s.h ∧ t.k = s.k ∧ t.pos = s.pos ∧ t.len = s.len ∧ t.cause = s.cause ∧
      t.faddr = s.faddr)

/-! ### Reset and the sticky phases (70_reset R115, R116; 60_exceptions R107, R108) -/

/-- `RESET` in any phase leaves `PHASE = IDLE` and `CAUSE = NONE`, after which `STATUS` and `CTRL`
read 0; the buffer is not affected (70_reset R115, R116). -/
def Obligations.ResetReturnsToIdle : Prop :=
  ∀ s : State, ∃ t, hostStep .reset s = .next t ∧ t.phase = 0#4 ∧ t.cause = 0#2 ∧
    t.buffer = s.buffer ∧ t.replies = s.replies ∧
    hostStep (.rd 3) t = .next { t with replies := ⟨3, 0#64⟩ :: t.replies } ∧
    hostStep (.rd 2) t = .next { t with replies := ⟨2, 0#64⟩ :: t.replies }

/-- `FAULT` is sticky: no step of any agent but a reset leaves it, and `CAUSE`, `FADDR` and the
working registers keep their values (60_exceptions R107, R108; 42_controller R84). -/
def Obligations.FaultIsSticky : Prop :=
  ∀ s t : State, s.phase = 8#4 → NoResetNext s → step s = .next t →
    t.phase = 8#4 ∧ t.cause = s.cause ∧ t.faddr = s.faddr ∧ t.h = s.h ∧ t.k = s.k ∧
    t.pos = s.pos ∧ t.len = s.len

/-- `IDLE` and `DONE` are left only by an accepted START or a reset, and `H` is held meanwhile
(42_controller R76, R83; 60_exceptions R106). -/
def Obligations.IdleAndDoneAreLeftByStart : Prop :=
  ∀ s t : State, s.phase = 0#4 ∨ s.phase = 7#4 → NoResetNext s → step s = .next t →
    t.h = s.h ∧ (t.phase = s.phase ∨
      (t.phase = 1#4 ∧ ∃ v rest, s.schedule = .host (.wr 2 v) :: rest ∧ v.toNat % 2 = 1))

/-- The arguments of a run cannot change under it: from a `BUSY` state no step of any agent but a
reset changes `SEED` or `LENGTH` (43_host R91, 10_state R21). -/
def Obligations.BusyFreezesArguments : Prop :=
  ∀ s t : State, busy s = true → NoResetNext s → step s = .next t →
    t.seed = s.seed ∧ t.length = s.length

/-- A change of the buffer changes the one byte it names and nothing else; a byte placed is readable,
a byte withdrawn is not (20_memory R33). The two moves are the model's (log 8). -/
def Obligations.BufferMovesChangeOneByte : Prop :=
  ∀ (s : State) (index : Word) (b : Byte),
    (∃ m, placeByte index b s = .next { s with buffer := m } ∧
      m.read index.toNat = some b ∧
      (∀ a, a ≠ index.toNat → m.read a = s.buffer.read a) ∧
      (s.buffer.wf = true → m.wf = true)) ∧
    ∃ m, withdrawByte index s = .next { s with buffer := m } ∧
      (∀ a, a ≠ index.toNat → m.read a = s.buffer.read a) ∧
      (s.buffer.wf = true → m.read index.toNat = none ∧ m.wf = true)

end
end

