-- ==== Sys2Proof/Laws/Memory.lean ====
section
/-! SUPPORT. The laws of the buffer: a read after a change, the canonical form and what keeps it,
equal buffers are equal data, and what `MemRead` can answer. -/

namespace Sys2Proof.Machine

namespace Memory

@[simp] theorem read_nil (i : Nat) : Memory.read [] i = none := rfl

@[simp] theorem read_cons (a : Nat) (b : Byte) (m : Memory) (i : Nat) :
    Memory.read ((a, b) :: m) i = if i = a then some b else Memory.read m i := rfl

theorem risingFrom_cons {lo a : Nat} {b : Byte} {m : Memory} :
    risingFrom lo ((a, b) :: m) = true ↔ lo ≤ a ∧ a < 2 ^ 64 ∧ risingFrom (a + 1) m = true := by
  simp [risingFrom, and_assoc]

theorem risingFrom_mono {lo lo' : Nat} (h : lo' ≤ lo) :
    ∀ {m : Memory}, risingFrom lo m = true → risingFrom lo' m = true
  | [], _ => rfl
  | (a, b) :: m, hm => by
    rw [risingFrom_cons] at hm ⊢
    exact ⟨h.trans hm.1, hm.2⟩

/-- Nothing is listed below the first index. -/
theorem read_eq_none_of_lt {lo i : Nat} (hi : i < lo) :
    ∀ {m : Memory}, risingFrom lo m = true → m.read i = none
  | [], _ => rfl
  | (a, b) :: m, hm => by
    rw [risingFrom_cons] at hm
    rw [read_cons, if_neg (by omega)]
    exact read_eq_none_of_lt (by omega) hm.2.2

theorem read_place (m : Memory) (i j : Nat) (b : Byte) :
    (m.place i b).read j = if j = i then some b else m.read j := by
  induction m with
  | nil => rfl
  | cons e m ih =>
    obtain ⟨a, c⟩ := e
    simp only [place]
    split
    · rfl
    · split
      · subst_vars; simp only [read_cons]; split <;> rfl
      · simp only [read_cons, ih]
        split_ifs <;> simp_all

theorem read_withdraw_self {lo : Nat} {m : Memory} (i : Nat) (hm : risingFrom lo m = true) :
    (m.withdraw i).read i = none := by
  induction m generalizing lo with
  | nil => rfl
  | cons e m ih =>
    obtain ⟨a, c⟩ := e
    rw [risingFrom_cons] at hm
    simp only [withdraw]
    split
    · subst_vars; exact read_eq_none_of_lt (Nat.lt_succ_self _) hm.2.2
    · rw [read_cons, if_neg ‹_›]; exact ih hm.2.2

theorem read_withdraw_of_ne {m : Memory} {i j : Nat} (h : j ≠ i) :
    (m.withdraw i).read j = m.read j := by
  induction m with
  | nil => rfl
  | cons e m ih =>
    obtain ⟨a, c⟩ := e
    simp only [withdraw]
    split
    · subst_vars; rw [read_cons, if_neg h]
    · rw [read_cons, read_cons, ih]

theorem risingFrom_place {lo i : Nat} {m : Memory} (b : Byte) (hm : risingFrom lo m = true)
    (hlo : lo ≤ i) (hi : i < 2 ^ 64) : risingFrom lo (m.place i b) = true := by
  induction m generalizing lo with
  | nil => exact risingFrom_cons.2 ⟨hlo, hi, rfl⟩
  | cons e m ih =>
    obtain ⟨a, c⟩ := e
    rw [risingFrom_cons] at hm
    simp only [place]
    split
    · exact risingFrom_cons.2 ⟨hlo, hi, risingFrom_cons.2 ⟨by omega, hm.2.1, hm.2.2⟩⟩
    · split
      · subst_vars; exact risingFrom_cons.2 ⟨hlo, hi, hm.2.2⟩
      · exact risingFrom_cons.2 ⟨hm.1, hm.2.1, ih hm.2.2 (by omega)⟩

theorem risingFrom_withdraw {lo i : Nat} {m : Memory} (hm : risingFrom lo m = true) :
    risingFrom lo (m.withdraw i) = true := by
  induction m generalizing lo with
  | nil => rfl
  | cons e m ih =>
    obtain ⟨a, c⟩ := e
    rw [risingFrom_cons] at hm
    simp only [withdraw]
    split
    · exact risingFrom_mono (by omega) hm.2.2
    · exact risingFrom_cons.2 ⟨hm.1, hm.2.1, ih hm.2.2⟩

/-- Placing a byte at a 64-bit index keeps the canonical form. -/
theorem wf_place {m : Memory} (index : Word) (b : Byte) (hm : m.wf = true) :
    (m.place index.toNat b).wf = true :=
  risingFrom_place b hm (Nat.zero_le _) index.isLt

/-- Withdrawing a byte keeps the canonical form. -/
theorem wf_withdraw {m : Memory} (i : Nat) (hm : m.wf = true) : (m.withdraw i).wf = true :=
  risingFrom_withdraw hm

/-- The buffer after reset is in canonical form. -/
theorem wf_reset : State.reset.buffer.wf = true := rfl

/-- Equal memories are equal data: two canonical lists that read alike are the same list. -/
theorem eq_of_read_eq {lo : Nat} {m n : Memory} (hm : risingFrom lo m = true)
    (hn : risingFrom lo n = true) (h : ∀ i, Memory.read m i = Memory.read n i) : m = n := by
  induction m generalizing lo n with
  | nil =>
    cases n with
    | nil => rfl
    | cons e n => obtain ⟨a, c⟩ := e; simpa using h a
  | cons e m ih =>
    obtain ⟨a, b⟩ := e
    cases n with
    | nil => simpa using h a
    | cons e' n =>
      obtain ⟨a', b'⟩ := e'
      rw [risingFrom_cons] at hm hn
      have haa : a = a' := by
        rcases Nat.lt_trichotomy a a' with hlt | heq | hgt
        · have := h a
          rw [read_cons, if_pos rfl, read_cons, if_neg (by omega),
            read_eq_none_of_lt (by omega) hn.2.2] at this
          cases this
        · exact heq
        · have := h a'
          rw [read_cons, if_neg (by omega), read_eq_none_of_lt (by omega) hm.2.2, read_cons,
            if_pos rfl] at this
          cases this
      subst haa
      have hb : b = b' := by simpa using h a
      subst hb
      have htail : ∀ i, Memory.read m i = Memory.read n i := by
        intro i
        by_cases hi : i = a
        · subst hi
          rw [read_eq_none_of_lt (Nat.lt_succ_self _) hm.2.2,
            read_eq_none_of_lt (Nat.lt_succ_self _) hn.2.2]
        · simpa [hi] using h i
      rw [ih hm.2.2 hn.2.2 htail]

/-- The `j`-th index after the next one is the `j+1`-th after this one, wrapping included. -/
theorem index_succ (a : Word) (j : Nat) :
    a + 1#64 + BitVec.ofNat 64 j = a + BitVec.ofNat 64 (j + 1) := by
  apply BitVec.eq_of_toNat_eq
  simp only [BitVec.toNat_add, BitVec.toNat_ofNat]
  omega

/-- What a run of bytes reads as: all of them, in order, each readable. -/
theorem readBytes_eq_some {m : Memory} {n : Nat} {a : Word} {bs : List Byte} :
    m.readBytes a n = some bs ↔ bs.length = n ∧
      ∀ j (h : j < bs.length), m.read (a + BitVec.ofNat 64 j).toNat = some bs[j] := by
  induction n generalizing a bs with
  | zero =>
    simp only [readBytes, Option.some.injEq, List.length_eq_zero_iff]
    constructor
    · rintro rfl; simp
    · rintro ⟨rfl, -⟩; rfl
  | succ n ih =>
    simp only [readBytes]
    constructor
    · intro h
      split at h
      · rename_i b bs' hb hbs
        cases h
        obtain ⟨hl, hr⟩ := ih.1 hbs
        refine ⟨by simp [hl], ?_⟩
        intro j hj
        cases j with
        | zero => simpa using hb
        | succ j => rw [← index_succ]; simpa using hr j (by simpa using hj)
      · cases h
    · rintro ⟨hl, hr⟩
      cases bs with
      | nil => cases hl
      | cons b bs' =>
        have hb : m.read a.toNat = some b := by
          have h0 := hr 0 (by simp)
          rwa [show a + BitVec.ofNat 64 0 = a by simp] at h0
        have hbs : m.readBytes (a + 1#64) n = some bs' := by
          refine ih.2 ⟨by simpa using hl, ?_⟩
          intro j hj
          rw [index_succ]; exact hr (j + 1) (by simpa using hj)
        rw [hb, hbs]

/-- A run of bytes is missing exactly where one of its bytes is not readable. -/
theorem readBytes_eq_none {m : Memory} {n : Nat} {a : Word} :
    m.readBytes a n = none ↔ ∃ j < n, m.read (a + BitVec.ofNat 64 j).toNat = none := by
  induction n generalizing a with
  | zero => simp [readBytes]
  | succ n ih =>
    simp only [readBytes]
    constructor
    · intro h
      split at h
      · cases h
      · rename_i hno
        cases hb : m.read a.toNat with
        | none => exact ⟨0, Nat.succ_pos _, by simpa using hb⟩
        | some b =>
          cases hbs : m.readBytes (a + 1#64) n with
          | none =>
            obtain ⟨j, hj, hr⟩ := ih.1 hbs
            exact ⟨j + 1, by omega, by rw [← index_succ]; exact hr⟩
          | some bs => exact absurd hbs (hno b bs hb)
    · rintro ⟨j, hj, hr⟩
      cases j with
      | zero =>
        have hb : m.read a.toNat = none := by simpa using hr
        rw [hb]
      | succ j =>
        have hbs : m.readBytes (a + 1#64) n = none :=
          ih.2 ⟨j, by omega, by rw [index_succ]; exact hr⟩
        rw [hbs]
        split
        · rename_i h; cases h
        · rfl

end Memory

/-- `MemRead` answers bytes exactly where all of them are readable (20_memory R33). -/
theorem memRead_ok_iff {m : Memory} {a : Word} {n : Nat} {bs : List Byte} :
    memRead m a n = .ok bs ↔ bs.length = n ∧
      ∀ j (h : j < bs.length), m.read (a + BitVec.ofNat 64 j).toNat = some bs[j] := by
  rw [← Memory.readBytes_eq_some]
  unfold memRead
  split
  · rename_i h; rw [h]; simp
  · rename_i h; rw [h]; simp

/-- `MemRead` raises nothing but `Fault(MEM, addr)`, and that exactly where a byte is not readable
(20_memory R33). -/
theorem memRead_error_iff {m : Memory} {a : Word} {n : Nat} {t : Trap} :
    memRead m a n = .error t ↔ t = .mem a ∧
      ∃ j < n, m.read (a + BitVec.ofNat 64 j).toNat = none := by
  rw [← Memory.readBytes_eq_none]
  unfold memRead
  split
  · rename_i h; rw [h]; simp
  · rename_i h; rw [h]; simp [eq_comm]

end Sys2Proof.Machine
end

