-- ==== Sys2Proof/Laws/Extract.lean ====
section
/-! SUPPORT. What each extraction primitive can answer, said once: its value or its fault. -/

namespace Sys2Proof.Machine

open Sys2Proof.Safety

/-! ### The sequencing of faults -/

theorem bind_ok_iff {α β : Type} {r : Except Trap α} {f : α → Except Trap β} {b : β} :
    (r >>= f) = .ok b ↔ ∃ a, r = .ok a ∧ f a = .ok b := by
  cases r <;> simp [bind, Except.bind]

theorem bind_error_iff {α β : Type} {r : Except Trap α} {f : α → Except Trap β} {t : Trap} :
    (r >>= f) = .error t ↔ r = .error t ∨ ∃ a, r = .ok a ∧ f a = .error t := by
  cases r <;> simp [bind, Except.bind]

@[simp] theorem map_ok_iff {α β : Type} {r : Except Trap α} {f : α → β} {b : β} :
    f <$> r = .ok b ↔ ∃ a, r = .ok a ∧ f a = b := by
  cases r <;> simp [Functor.map, Except.map]

@[simp] theorem map_error_iff {α β : Type} {r : Except Trap α} {f : α → β} {t : Trap} :
    f <$> r = .error t ↔ r = .error t := by
  cases r <;> simp [Functor.map, Except.map]

@[simp] theorem pure_ok_iff {α : Type} {a b : α} :
    (pure a : Except Trap α) = .ok b ↔ a = b := by simp [pure, Except.pure]

@[simp] theorem pure_ne_error {α : Type} {a : α} {t : Trap} :
    (pure a : Except Trap α) ≠ .error t := by simp [pure, Except.pure]

/-- A check passes exactly where its condition holds. -/
@[simp] theorem require_ok_iff {c : Bool} {u : Unit} : require c = .ok u ↔ c = true := by
  unfold require; split <;> simp_all

/-- A check raises nothing but `CONTRACT` (42_controller R74). -/
@[simp] theorem require_error_iff {c : Bool} {t : Trap} :
    require c = .error t ↔ c = false ∧ t = .contract := by
  unfold require; split <;> simp_all [eq_comm]

/-! ### The buffer predicates of Safety -/

/-- Where the indices do not run past the last one, they are plain sums. -/
theorem index_toNat {a : Word} {j : Nat} (h : a.toNat + j < 2 ^ 64) :
    (a + BitVec.ofNat 64 j).toNat = a.toNat + j := by
  simp only [BitVec.toNat_add, BitVec.toNat_ofNat]
  omega

theorem memRead_eq_ok_of_holds {m : Memory} {a : Word} {bs : List Byte}
    (ha : a.toNat + bs.length ≤ 2 ^ 64) (h : Holds m a.toNat bs) :
    memRead m a bs.length = .ok bs :=
  memRead_ok_iff.2 ⟨rfl, fun j hj => by rw [index_toNat (by omega)]; exact h j hj⟩

theorem exists_holds_of_allReadable {m : Memory} {a n : Nat} (h : AllReadable m a n) :
    ∃ bs, bs.length = n ∧ Holds m a bs := by
  refine ⟨(List.range n).map fun j => (m.read (a + j)).getD 0#8, by simp, ?_⟩
  intro j hj
  have hread := h j (by simpa using hj)
  rw [Memory.readable, Option.isSome_iff_exists] at hread
  obtain ⟨b, hb⟩ := hread
  simp [hb]

theorem memRead_error_of_not_allReadable {m : Memory} {a : Word} {n : Nat}
    (ha : a.toNat + n ≤ 2 ^ 64) (h : ¬ AllReadable m a.toNat n) :
    memRead m a n = .error (.mem a) := by
  refine memRead_error_iff.2 ⟨rfl, ?_⟩
  unfold AllReadable at h
  push Not at h
  obtain ⟨j, hj, hr⟩ := h
  exact ⟨j, hj, by rw [index_toNat (by omega)]; simpa [Memory.readable] using hr⟩

/-! ### The primitives (40_extract R55 to R58) -/

theorem get32_ok_iff {m : Memory} {i : Word} {w : Half} :
    get32 m i = .ok w ↔ ∃ bs, memRead m i 4 = .ok bs ∧ assembleFrom 0 bs = w := by
  simp [get32]

theorem get32_error_iff {m : Memory} {i : Word} {t : Trap} :
    get32 m i = .error t ↔ memRead m i 4 = .error t := by
  simp [get32]

theorem getP32_ok_iff {m : Memory} {i : Word} {n : Nat} {w : Half} :
    getP32 m i n = .ok w ↔
      (1 ≤ n ∧ n ≤ 3) ∧ ∃ bs, memRead m i n = .ok bs ∧ assembleFrom 0 bs = w := by
  simp [getP32, bind_ok_iff]

theorem getP32_error_iff {m : Memory} {i : Word} {n : Nat} {t : Trap} :
    getP32 m i n = .error t ↔
      (¬ (1 ≤ n ∧ n ≤ 3) ∧ t = .contract) ∨ ((1 ≤ n ∧ n ≤ 3) ∧ memRead m i n = .error t) := by
  simp only [getP32, bind_error_iff, require_error_iff, require_ok_iff, Bool.and_eq_true,
    decide_eq_true_eq, pure_ne_error, and_false, exists_false, or_false, exists_const]
  simp [imp_iff_not_or]

theorem get64_ok_iff {m : Memory} {i : Word} {w : Word} :
    get64 m i = .ok w ↔ ∃ w0 w1, get32 m i = .ok w0 ∧ get32 m (i + 4#64) = .ok w1 ∧
      w0.setWidth 64 ||| (w1.setWidth 64 <<< 32) = w := by
  simp [get64, bind_ok_iff]

/-- The lower index is read first (60_exceptions R105). -/
theorem get64_error_iff {m : Memory} {i : Word} {t : Trap} :
    get64 m i = .error t ↔
      get32 m i = .error t ∨ ∃ w0, get32 m i = .ok w0 ∧ get32 m (i + 4#64) = .error t := by
  simp [get64, bind_error_iff]

/-- `GETP64` outside 1..7 raises `CONTRACT` before any read. -/
theorem getP64_of_not_range {m : Memory} {i : Word} {n : Nat} (h : ¬ (1 ≤ n ∧ n ≤ 7)) :
    getP64 m i n = .error .contract := by
  have : require (decide (1 ≤ n) && decide (n ≤ 7)) = .error .contract := by
    rw [require_error_iff]; simpa using h
  simp [getP64, this, bind, Except.bind]

theorem getP64_of_lt_four {m : Memory} {i : Word} {n : Nat} (h1 : 1 ≤ n) (h4 : n < 4) :
    getP64 m i n = (getP32 m i n >>= fun w => pure (w.setWidth 64)) := by
  have : require (decide (1 ≤ n) && decide (n ≤ 7)) = .ok () := by simp; omega
  simp only [getP64, this, bind, Except.bind, if_neg (Nat.not_le.2 h4)]

theorem getP64_four {m : Memory} {i : Word} :
    getP64 m i 4 = (get32 m i >>= fun w => pure (w.setWidth 64)) := rfl

theorem getP64_of_gt_four {m : Memory} {i : Word} {n : Nat} (h4 : 4 < n) (h7 : n ≤ 7) :
    getP64 m i n = (get32 m i >>= fun low => getP32 m (i + 4#64) (n - 4) >>= fun hi =>
      pure ((low.setWidth 64 <<< ((n - 4) * 8)) ||| hi.setWidth 64)) := by
  have : require (decide (1 ≤ n) && decide (n ≤ 7)) = .ok () := by simp; omega
  simp only [getP64, this, bind, Except.bind, if_pos (Nat.le_of_lt h4), if_neg (Nat.ne_of_gt h4)]

/-! ### The value of an assembled word -/

theorem leValue_lt (bs : List Byte) : leValue bs < 256 ^ bs.length := by
  induction bs with
  | nil => simp [leValue]
  | cons b bs ih =>
    have := b.isLt
    simp only [leValue, List.length_cons, Nat.pow_succ]
    omega

/-- Bytes assembled from place `j` on are their little-endian value, shifted by `8*j` bits. -/
theorem assembleFrom_toNat (bs : List Byte) (j : Nat) (h : j + bs.length ≤ 4) :
    (assembleFrom j bs).toNat = leValue bs * 256 ^ j := by
  induction bs generalizing j with
  | nil => simp [assembleFrom, leValue]
  | cons b bs ih =>
    simp only [List.length_cons] at h
    have hb := b.isLt
    have hp : (256 : Nat) ^ j = 2 ^ (8 * j) := by rw [Nat.pow_mul]
    have hle : (256 : Nat) ^ (j + 1) ≤ 256 ^ 4 := Nat.pow_le_pow_right (by decide) (by omega)
    have hs : (BitVec.setWidth 32 b <<< (8 * j)).toNat = b.toNat * 256 ^ j := by
      rw [BitVec.toNat_shiftLeft, BitVec.toNat_setWidth, Nat.shiftLeft_eq,
        Nat.mod_eq_of_lt (by omega : b.toNat < 2 ^ 32), ← hp, Nat.mod_eq_of_lt]
      have : b.toNat * 256 ^ j < 256 ^ (j + 1) := by
        rw [Nat.pow_succ, Nat.mul_comm]; exact Nat.mul_lt_mul_of_pos_left hb (by positivity)
      omega
    have hlt : b.toNat * 256 ^ j < 2 ^ (8 * (j + 1)) := by
      rw [Nat.pow_mul, Nat.pow_succ, Nat.mul_comm]
      exact Nat.mul_lt_mul_of_pos_left hb (by positivity)
    rw [assembleFrom, BitVec.toNat_or, hs, ih (j + 1) (by omega)]
    have hsh : leValue bs * 256 ^ (j + 1) = leValue bs <<< (8 * (j + 1)) := by
      rw [Nat.shiftLeft_eq, Nat.pow_mul]
    rw [hsh, Nat.or_comm, ← Nat.shiftLeft_add_eq_or_of_lt hlt, Nat.shiftLeft_eq, Nat.pow_mul,
      leValue]
    ring

/-- A byte string of at most four bytes is assembled to its little-endian value. -/
theorem assemble_toNat {bs : List Byte} (h : bs.length ≤ 4) :
    (assembleFrom 0 bs).toNat = leValue bs := by
  simpa using assembleFrom_toNat bs 0 (by simpa using h)

end Sys2Proof.Machine
end

