-- ==== Sys2Proof/Laws/State.lean ====
section
/-! SUPPORT. One lemma per field per named update of the state: what each update writes, and that it
leaves every other field alone. -/

namespace Sys2Proof.Machine

/-! ### Accumulator `H` -/

@[simp] theorem setAcc_h_h (s : State) (v : Word) : (s.setAcc .h v).h = v := rfl
@[simp] theorem setAcc_h_k (s : State) (v : Word) : (s.setAcc .h v).k = s.k := rfl
@[simp] theorem setAcc_h_pos (s : State) (v : Word) : (s.setAcc .h v).pos = s.pos := rfl
@[simp] theorem setAcc_h_len (s : State) (v : Word) : (s.setAcc .h v).len = s.len := rfl
@[simp] theorem setAcc_h_phase (s : State) (v : Word) : (s.setAcc .h v).phase = s.phase := rfl
@[simp] theorem setAcc_h_cause (s : State) (v : Word) : (s.setAcc .h v).cause = s.cause := rfl
@[simp] theorem setAcc_h_seed (s : State) (v : Word) : (s.setAcc .h v).seed = s.seed := rfl
@[simp] theorem setAcc_h_length (s : State) (v : Word) : (s.setAcc .h v).length = s.length := rfl
@[simp] theorem setAcc_h_faddr (s : State) (v : Word) : (s.setAcc .h v).faddr = s.faddr := rfl
@[simp] theorem setAcc_h_buffer (s : State) (v : Word) : (s.setAcc .h v).buffer = s.buffer := rfl
@[simp] theorem setAcc_h_schedule (s : State) (v : Word) :
    (s.setAcc .h v).schedule = s.schedule := rfl
@[simp] theorem setAcc_h_replies (s : State) (v : Word) :
    (s.setAcc .h v).replies = s.replies := rfl
@[simp] theorem setAcc_h_freeIndex (s : State) (v : Word) :
    (s.setAcc .h v).freeIndex = s.freeIndex := rfl

/-! ### Accumulator `K` -/

@[simp] theorem setAcc_k_h (s : State) (v : Word) : (s.setAcc .k v).h = s.h := rfl
@[simp] theorem setAcc_k_k (s : State) (v : Word) : (s.setAcc .k v).k = v := rfl
@[simp] theorem setAcc_k_pos (s : State) (v : Word) : (s.setAcc .k v).pos = s.pos := rfl
@[simp] theorem setAcc_k_len (s : State) (v : Word) : (s.setAcc .k v).len = s.len := rfl
@[simp] theorem setAcc_k_phase (s : State) (v : Word) : (s.setAcc .k v).phase = s.phase := rfl
@[simp] theorem setAcc_k_cause (s : State) (v : Word) : (s.setAcc .k v).cause = s.cause := rfl
@[simp] theorem setAcc_k_seed (s : State) (v : Word) : (s.setAcc .k v).seed = s.seed := rfl
@[simp] theorem setAcc_k_length (s : State) (v : Word) : (s.setAcc .k v).length = s.length := rfl
@[simp] theorem setAcc_k_faddr (s : State) (v : Word) : (s.setAcc .k v).faddr = s.faddr := rfl
@[simp] theorem setAcc_k_buffer (s : State) (v : Word) : (s.setAcc .k v).buffer = s.buffer := rfl
@[simp] theorem setAcc_k_schedule (s : State) (v : Word) :
    (s.setAcc .k v).schedule = s.schedule := rfl
@[simp] theorem setAcc_k_replies (s : State) (v : Word) :
    (s.setAcc .k v).replies = s.replies := rfl
@[simp] theorem setAcc_k_freeIndex (s : State) (v : Word) :
    (s.setAcc .k v).freeIndex = s.freeIndex := rfl

@[simp] theorem acc_h (s : State) : s.acc .h = s.h := rfl
@[simp] theorem acc_k (s : State) : s.acc .k = s.k := rfl

/-! ### The mix with `N` -/

@[simp] theorem cwmixb_h (x : Word) (s : State) :
    (cwmixb x s).h = s.h ^^^ productLo x foldN := rfl
@[simp] theorem cwmixb_k (x : Word) (s : State) :
    (cwmixb x s).k = s.k ^^^ productHi x foldN := rfl
@[simp] theorem cwmixb_pos (x : Word) (s : State) : (cwmixb x s).pos = s.pos := rfl
@[simp] theorem cwmixb_len (x : Word) (s : State) : (cwmixb x s).len = s.len := rfl
@[simp] theorem cwmixb_phase (x : Word) (s : State) : (cwmixb x s).phase = s.phase := rfl
@[simp] theorem cwmixb_cause (x : Word) (s : State) : (cwmixb x s).cause = s.cause := rfl
@[simp] theorem cwmixb_seed (x : Word) (s : State) : (cwmixb x s).seed = s.seed := rfl
@[simp] theorem cwmixb_length (x : Word) (s : State) : (cwmixb x s).length = s.length := rfl
@[simp] theorem cwmixb_faddr (x : Word) (s : State) : (cwmixb x s).faddr = s.faddr := rfl
@[simp] theorem cwmixb_buffer (x : Word) (s : State) : (cwmixb x s).buffer = s.buffer := rfl
@[simp] theorem cwmixb_schedule (x : Word) (s : State) : (cwmixb x s).schedule = s.schedule := rfl
@[simp] theorem cwmixb_replies (x : Word) (s : State) : (cwmixb x s).replies = s.replies := rfl
@[simp] theorem cwmixb_freeIndex (x : Word) (s : State) :
    (cwmixb x s).freeIndex = s.freeIndex := rfl

/-! ### The mix with `M` -/

@[simp] theorem cwmixa_h (y : Word) (s : State) :
    (cwmixa y s).h = s.h ^^^ productHi y foldM := rfl
@[simp] theorem cwmixa_k (y : Word) (s : State) :
    (cwmixa y s).k = s.k ^^^ productLo y foldM := rfl
@[simp] theorem cwmixa_pos (y : Word) (s : State) : (cwmixa y s).pos = s.pos := rfl
@[simp] theorem cwmixa_len (y : Word) (s : State) : (cwmixa y s).len = s.len := rfl
@[simp] theorem cwmixa_phase (y : Word) (s : State) : (cwmixa y s).phase = s.phase := rfl
@[simp] theorem cwmixa_cause (y : Word) (s : State) : (cwmixa y s).cause = s.cause := rfl
@[simp] theorem cwmixa_seed (y : Word) (s : State) : (cwmixa y s).seed = s.seed := rfl
@[simp] theorem cwmixa_length (y : Word) (s : State) : (cwmixa y s).length = s.length := rfl
@[simp] theorem cwmixa_faddr (y : Word) (s : State) : (cwmixa y s).faddr = s.faddr := rfl
@[simp] theorem cwmixa_buffer (y : Word) (s : State) : (cwmixa y s).buffer = s.buffer := rfl
@[simp] theorem cwmixa_schedule (y : Word) (s : State) : (cwmixa y s).schedule = s.schedule := rfl
@[simp] theorem cwmixa_replies (y : Word) (s : State) : (cwmixa y s).replies = s.replies := rfl
@[simp] theorem cwmixa_freeIndex (y : Word) (s : State) :
    (cwmixa y s).freeIndex = s.freeIndex := rfl

/-! ### Fault entry on a refused read -/

@[simp] theorem raiseFault_mem_h (a : Word) (s : State) : (raiseFault (.mem a) s).h = s.h := rfl
@[simp] theorem raiseFault_mem_k (a : Word) (s : State) : (raiseFault (.mem a) s).k = s.k := rfl
@[simp] theorem raiseFault_mem_pos (a : Word) (s : State) :
    (raiseFault (.mem a) s).pos = s.pos := rfl
@[simp] theorem raiseFault_mem_len (a : Word) (s : State) :
    (raiseFault (.mem a) s).len = s.len := rfl
@[simp] theorem raiseFault_mem_phase (a : Word) (s : State) :
    (raiseFault (.mem a) s).phase = phaseFault := rfl
@[simp] theorem raiseFault_mem_cause (a : Word) (s : State) :
    (raiseFault (.mem a) s).cause = causeMem := rfl
@[simp] theorem raiseFault_mem_seed (a : Word) (s : State) :
    (raiseFault (.mem a) s).seed = s.seed := rfl
@[simp] theorem raiseFault_mem_length (a : Word) (s : State) :
    (raiseFault (.mem a) s).length = s.length := rfl
@[simp] theorem raiseFault_mem_faddr (a : Word) (s : State) :
    (raiseFault (.mem a) s).faddr = a := rfl
@[simp] theorem raiseFault_mem_buffer (a : Word) (s : State) :
    (raiseFault (.mem a) s).buffer = s.buffer := rfl
@[simp] theorem raiseFault_mem_schedule (a : Word) (s : State) :
    (raiseFault (.mem a) s).schedule = s.schedule := rfl
@[simp] theorem raiseFault_mem_replies (a : Word) (s : State) :
    (raiseFault (.mem a) s).replies = s.replies := rfl
@[simp] theorem raiseFault_mem_freeIndex (a : Word) (s : State) :
    (raiseFault (.mem a) s).freeIndex = s.freeIndex := rfl

/-! ### Fault entry on a reserved code -/

@[simp] theorem raiseFault_illegalPhase_h (s : State) :
    (raiseFault .illegalPhase s).h = s.h := rfl
@[simp] theorem raiseFault_illegalPhase_k (s : State) :
    (raiseFault .illegalPhase s).k = s.k := rfl
@[simp] theorem raiseFault_illegalPhase_pos (s : State) :
    (raiseFault .illegalPhase s).pos = s.pos := rfl
@[simp] theorem raiseFault_illegalPhase_len (s : State) :
    (raiseFault .illegalPhase s).len = s.len := rfl
@[simp] theorem raiseFault_illegalPhase_phase (s : State) :
    (raiseFault .illegalPhase s).phase = phaseFault := rfl
@[simp] theorem raiseFault_illegalPhase_cause (s : State) :
    (raiseFault .illegalPhase s).cause = causeIllegalPhase := rfl
@[simp] theorem raiseFault_illegalPhase_seed (s : State) :
    (raiseFault .illegalPhase s).seed = s.seed := rfl
@[simp] theorem raiseFault_illegalPhase_length (s : State) :
    (raiseFault .illegalPhase s).length = s.length := rfl
@[simp] theorem raiseFault_illegalPhase_faddr (s : State) :
    (raiseFault .illegalPhase s).faddr = s.faddr := rfl
@[simp] theorem raiseFault_illegalPhase_buffer (s : State) :
    (raiseFault .illegalPhase s).buffer = s.buffer := rfl
@[simp] theorem raiseFault_illegalPhase_schedule (s : State) :
    (raiseFault .illegalPhase s).schedule = s.schedule := rfl
@[simp] theorem raiseFault_illegalPhase_replies (s : State) :
    (raiseFault .illegalPhase s).replies = s.replies := rfl
@[simp] theorem raiseFault_illegalPhase_freeIndex (s : State) :
    (raiseFault .illegalPhase s).freeIndex = s.freeIndex := rfl

/-! ### Fault entry on a violated range -/

@[simp] theorem raiseFault_contract_h (s : State) : (raiseFault .contract s).h = s.h := rfl
@[simp] theorem raiseFault_contract_k (s : State) : (raiseFault .contract s).k = s.k := rfl
@[simp] theorem raiseFault_contract_pos (s : State) : (raiseFault .contract s).pos = s.pos := rfl
@[simp] theorem raiseFault_contract_len (s : State) : (raiseFault .contract s).len = s.len := rfl
@[simp] theorem raiseFault_contract_phase (s : State) :
    (raiseFault .contract s).phase = phaseFault := rfl
@[simp] theorem raiseFault_contract_cause (s : State) :
    (raiseFault .contract s).cause = causeContract := rfl
@[simp] theorem raiseFault_contract_seed (s : State) :
    (raiseFault .contract s).seed = s.seed := rfl
@[simp] theorem raiseFault_contract_length (s : State) :
    (raiseFault .contract s).length = s.length := rfl
@[simp] theorem raiseFault_contract_faddr (s : State) :
    (raiseFault .contract s).faddr = s.faddr := rfl
@[simp] theorem raiseFault_contract_buffer (s : State) :
    (raiseFault .contract s).buffer = s.buffer := rfl
@[simp] theorem raiseFault_contract_schedule (s : State) :
    (raiseFault .contract s).schedule = s.schedule := rfl
@[simp] theorem raiseFault_contract_replies (s : State) :
    (raiseFault .contract s).replies = s.replies := rfl
@[simp] theorem raiseFault_contract_freeIndex (s : State) :
    (raiseFault .contract s).freeIndex = s.freeIndex := rfl

/-! ### Fault entry, whatever the cause -/

theorem raiseFault_phase (t : Trap) (s : State) : (raiseFault t s).phase = phaseFault := by
  cases t <;> rfl

theorem raiseFault_h (t : Trap) (s : State) : (raiseFault t s).h = s.h := by cases t <;> rfl

theorem raiseFault_k (t : Trap) (s : State) : (raiseFault t s).k = s.k := by cases t <;> rfl

theorem raiseFault_pos (t : Trap) (s : State) : (raiseFault t s).pos = s.pos := by cases t <;> rfl

theorem raiseFault_len (t : Trap) (s : State) : (raiseFault t s).len = s.len := by cases t <;> rfl

theorem raiseFault_seed (t : Trap) (s : State) : (raiseFault t s).seed = s.seed := by cases t <;> rfl

theorem raiseFault_length (t : Trap) (s : State) : (raiseFault t s).length = s.length := by cases t <;> rfl

theorem raiseFault_buffer (t : Trap) (s : State) : (raiseFault t s).buffer = s.buffer := by cases t <;> rfl

theorem raiseFault_schedule (t : Trap) (s : State) : (raiseFault t s).schedule = s.schedule := by cases t <;> rfl

theorem raiseFault_replies (t : Trap) (s : State) : (raiseFault t s).replies = s.replies := by cases t <;> rfl

theorem raiseFault_freeIndex (t : Trap) (s : State) : (raiseFault t s).freeIndex = s.freeIndex := by cases t <;> rfl

/-! ### Reset -/

@[simp] theorem applyReset_h (s : State) :
    (applyReset s).h = Config.unspecified s.freeIndex := rfl
@[simp] theorem applyReset_k (s : State) :
    (applyReset s).k = Config.unspecified (s.freeIndex + 1) := rfl
@[simp] theorem applyReset_pos (s : State) :
    (applyReset s).pos = Config.unspecified (s.freeIndex + 2) := rfl
@[simp] theorem applyReset_len (s : State) :
    (applyReset s).len = Config.unspecified (s.freeIndex + 3) := rfl
@[simp] theorem applyReset_phase (s : State) : (applyReset s).phase = phaseIdle := rfl
@[simp] theorem applyReset_cause (s : State) : (applyReset s).cause = causeNone := rfl
@[simp] theorem applyReset_seed (s : State) :
    (applyReset s).seed = Config.unspecified (s.freeIndex + 4) := rfl
@[simp] theorem applyReset_length (s : State) :
    (applyReset s).length = Config.unspecified (s.freeIndex + 5) := rfl
@[simp] theorem applyReset_faddr (s : State) :
    (applyReset s).faddr = Config.unspecified (s.freeIndex + 6) := rfl
@[simp] theorem applyReset_buffer (s : State) : (applyReset s).buffer = s.buffer := rfl
@[simp] theorem applyReset_schedule (s : State) : (applyReset s).schedule = s.schedule := rfl
@[simp] theorem applyReset_replies (s : State) : (applyReset s).replies = s.replies := rfl
@[simp] theorem applyReset_freeIndex (s : State) :
    (applyReset s).freeIndex = s.freeIndex + 7 := rfl

/-! ### Placing the next operation -/

@[simp] theorem placeFetch_h (s : State) (op : OpCode) : (placeFetch s op).h = s.h := rfl
@[simp] theorem placeFetch_k (s : State) (op : OpCode) : (placeFetch s op).k = s.k := rfl
@[simp] theorem placeFetch_pos (s : State) (op : OpCode) : (placeFetch s op).pos = s.pos := rfl
@[simp] theorem placeFetch_len (s : State) (op : OpCode) : (placeFetch s op).len = s.len := rfl
@[simp] theorem placeFetch_phase (s : State) (op : OpCode) : (placeFetch s op).phase = op := rfl
@[simp] theorem placeFetch_cause (s : State) (op : OpCode) :
    (placeFetch s op).cause = s.cause := rfl
@[simp] theorem placeFetch_seed (s : State) (op : OpCode) : (placeFetch s op).seed = s.seed := rfl
@[simp] theorem placeFetch_length (s : State) (op : OpCode) :
    (placeFetch s op).length = s.length := rfl
@[simp] theorem placeFetch_faddr (s : State) (op : OpCode) :
    (placeFetch s op).faddr = s.faddr := rfl
@[simp] theorem placeFetch_buffer (s : State) (op : OpCode) :
    (placeFetch s op).buffer = s.buffer := rfl
@[simp] theorem placeFetch_schedule (s : State) (op : OpCode) :
    (placeFetch s op).schedule = [] := rfl
@[simp] theorem placeFetch_replies (s : State) (op : OpCode) :
    (placeFetch s op).replies = s.replies := rfl
@[simp] theorem placeFetch_freeIndex (s : State) (op : OpCode) :
    (placeFetch s op).freeIndex = s.freeIndex := rfl

/-! ### The registers INIT writes -/

@[simp] theorem initOp_h (s : State) : (initOp s).h = s.seed := rfl
@[simp] theorem initOp_k (s : State) : (initOp s).k = s.length + s.seed + foldN := rfl
@[simp] theorem initOp_pos (s : State) : (initOp s).pos = 0#64 := rfl
@[simp] theorem initOp_len (s : State) : (initOp s).len = s.length := rfl
@[simp] theorem initOp_phase (s : State) : (initOp s).phase = dispatch s.length := rfl
@[simp] theorem initOp_cause (s : State) : (initOp s).cause = s.cause := rfl
@[simp] theorem initOp_seed (s : State) : (initOp s).seed = s.seed := rfl
@[simp] theorem initOp_length (s : State) : (initOp s).length = s.length := rfl
@[simp] theorem initOp_faddr (s : State) : (initOp s).faddr = s.faddr := rfl
@[simp] theorem initOp_buffer (s : State) : (initOp s).buffer = s.buffer := rfl
@[simp] theorem initOp_schedule (s : State) : (initOp s).schedule = s.schedule := rfl
@[simp] theorem initOp_replies (s : State) : (initOp s).replies = s.replies := rfl
@[simp] theorem initOp_freeIndex (s : State) : (initOp s).freeIndex = s.freeIndex := rfl

/-! ### The registers FINAL writes -/

@[simp] theorem finalOp_h (s : State) :
    (finalOp s).h = (s.h ^^^ productLo (operandFin s) foldN) ^^^ (s.k ^^^ productHi (operandFin s) foldN) := rfl
@[simp] theorem finalOp_k (s : State) :
    (finalOp s).k = s.k ^^^ productHi (operandFin s) foldN := rfl
@[simp] theorem finalOp_pos (s : State) : (finalOp s).pos = s.pos := rfl
@[simp] theorem finalOp_len (s : State) : (finalOp s).len = s.len := rfl
@[simp] theorem finalOp_phase (s : State) : (finalOp s).phase = phaseDone := rfl
@[simp] theorem finalOp_cause (s : State) : (finalOp s).cause = s.cause := rfl
@[simp] theorem finalOp_seed (s : State) : (finalOp s).seed = s.seed := rfl
@[simp] theorem finalOp_length (s : State) : (finalOp s).length = s.length := rfl
@[simp] theorem finalOp_faddr (s : State) : (finalOp s).faddr = s.faddr := rfl
@[simp] theorem finalOp_buffer (s : State) : (finalOp s).buffer = s.buffer := rfl
@[simp] theorem finalOp_schedule (s : State) : (finalOp s).schedule = s.schedule := rfl
@[simp] theorem finalOp_replies (s : State) : (finalOp s).replies = s.replies := rfl
@[simp] theorem finalOp_freeIndex (s : State) : (finalOp s).freeIndex = s.freeIndex := rfl

/-! ### A reply to the host -/

@[simp] theorem reply_h (s : State) (n : Nat) (v : Word) : (s.reply n v).h = s.h := rfl
@[simp] theorem reply_k (s : State) (n : Nat) (v : Word) : (s.reply n v).k = s.k := rfl
@[simp] theorem reply_pos (s : State) (n : Nat) (v : Word) : (s.reply n v).pos = s.pos := rfl
@[simp] theorem reply_len (s : State) (n : Nat) (v : Word) : (s.reply n v).len = s.len := rfl
@[simp] theorem reply_phase (s : State) (n : Nat) (v : Word) :
    (s.reply n v).phase = s.phase := rfl
@[simp] theorem reply_cause (s : State) (n : Nat) (v : Word) :
    (s.reply n v).cause = s.cause := rfl
@[simp] theorem reply_seed (s : State) (n : Nat) (v : Word) : (s.reply n v).seed = s.seed := rfl
@[simp] theorem reply_length (s : State) (n : Nat) (v : Word) :
    (s.reply n v).length = s.length := rfl
@[simp] theorem reply_faddr (s : State) (n : Nat) (v : Word) :
    (s.reply n v).faddr = s.faddr := rfl
@[simp] theorem reply_buffer (s : State) (n : Nat) (v : Word) :
    (s.reply n v).buffer = s.buffer := rfl
@[simp] theorem reply_schedule (s : State) (n : Nat) (v : Word) :
    (s.reply n v).schedule = s.schedule := rfl
@[simp] theorem reply_replies (s : State) (n : Nat) (v : Word) :
    (s.reply n v).replies = ⟨n, v⟩ :: s.replies := rfl
@[simp] theorem reply_freeIndex (s : State) (n : Nat) (v : Word) :
    (s.reply n v).freeIndex = s.freeIndex := rfl

/-! ### A reply with a free value -/

@[simp] theorem replyFree_h (s : State) (n : Nat) : (s.replyFree n).h = s.h := rfl
@[simp] theorem replyFree_k (s : State) (n : Nat) : (s.replyFree n).k = s.k := rfl
@[simp] theorem replyFree_pos (s : State) (n : Nat) : (s.replyFree n).pos = s.pos := rfl
@[simp] theorem replyFree_len (s : State) (n : Nat) : (s.replyFree n).len = s.len := rfl
@[simp] theorem replyFree_phase (s : State) (n : Nat) : (s.replyFree n).phase = s.phase := rfl
@[simp] theorem replyFree_cause (s : State) (n : Nat) : (s.replyFree n).cause = s.cause := rfl
@[simp] theorem replyFree_seed (s : State) (n : Nat) : (s.replyFree n).seed = s.seed := rfl
@[simp] theorem replyFree_length (s : State) (n : Nat) : (s.replyFree n).length = s.length := rfl
@[simp] theorem replyFree_faddr (s : State) (n : Nat) : (s.replyFree n).faddr = s.faddr := rfl
@[simp] theorem replyFree_buffer (s : State) (n : Nat) : (s.replyFree n).buffer = s.buffer := rfl
@[simp] theorem replyFree_schedule (s : State) (n : Nat) :
    (s.replyFree n).schedule = s.schedule := rfl
@[simp] theorem replyFree_replies (s : State) (n : Nat) :
    (s.replyFree n).replies = ⟨n, Config.unspecified s.freeIndex⟩ :: s.replies := rfl
@[simp] theorem replyFree_freeIndex (s : State) (n : Nat) :
    (s.replyFree n).freeIndex = s.freeIndex + 1 := rfl

/-! ### A write of `SEED` -/

@[simp] theorem writeSeed_h (v : Word) (s : State) : (writeSeed v s).h = s.h := by
  unfold writeSeed; split <;> rfl
@[simp] theorem writeSeed_k (v : Word) (s : State) : (writeSeed v s).k = s.k := by
  unfold writeSeed; split <;> rfl
@[simp] theorem writeSeed_pos (v : Word) (s : State) : (writeSeed v s).pos = s.pos := by
  unfold writeSeed; split <;> rfl
@[simp] theorem writeSeed_len (v : Word) (s : State) : (writeSeed v s).len = s.len := by
  unfold writeSeed; split <;> rfl
@[simp] theorem writeSeed_phase (v : Word) (s : State) : (writeSeed v s).phase = s.phase := by
  unfold writeSeed; split <;> rfl
@[simp] theorem writeSeed_cause (v : Word) (s : State) : (writeSeed v s).cause = s.cause := by
  unfold writeSeed; split <;> rfl
@[simp] theorem writeSeed_length (v : Word) (s : State) : (writeSeed v s).length = s.length := by
  unfold writeSeed; split <;> rfl
@[simp] theorem writeSeed_faddr (v : Word) (s : State) : (writeSeed v s).faddr = s.faddr := by
  unfold writeSeed; split <;> rfl
@[simp] theorem writeSeed_buffer (v : Word) (s : State) : (writeSeed v s).buffer = s.buffer := by
  unfold writeSeed; split <;> rfl
@[simp] theorem writeSeed_schedule (v : Word) (s : State) : (writeSeed v s).schedule = s.schedule := by
  unfold writeSeed; split <;> rfl
@[simp] theorem writeSeed_replies (v : Word) (s : State) : (writeSeed v s).replies = s.replies := by
  unfold writeSeed; split <;> rfl
@[simp] theorem writeSeed_freeIndex (v : Word) (s : State) : (writeSeed v s).freeIndex = s.freeIndex := by
  unfold writeSeed; split <;> rfl

/-! ### A write of `LENGTH` -/

@[simp] theorem writeLength_h (v : Word) (s : State) : (writeLength v s).h = s.h := by
  unfold writeLength; split <;> rfl
@[simp] theorem writeLength_k (v : Word) (s : State) : (writeLength v s).k = s.k := by
  unfold writeLength; split <;> rfl
@[simp] theorem writeLength_pos (v : Word) (s : State) : (writeLength v s).pos = s.pos := by
  unfold writeLength; split <;> rfl
@[simp] theorem writeLength_len (v : Word) (s : State) : (writeLength v s).len = s.len := by
  unfold writeLength; split <;> rfl
@[simp] theorem writeLength_phase (v : Word) (s : State) : (writeLength v s).phase = s.phase := by
  unfold writeLength; split <;> rfl
@[simp] theorem writeLength_cause (v : Word) (s : State) : (writeLength v s).cause = s.cause := by
  unfold writeLength; split <;> rfl
@[simp] theorem writeLength_seed (v : Word) (s : State) : (writeLength v s).seed = s.seed := by
  unfold writeLength; split <;> rfl
@[simp] theorem writeLength_faddr (v : Word) (s : State) : (writeLength v s).faddr = s.faddr := by
  unfold writeLength; split <;> rfl
@[simp] theorem writeLength_buffer (v : Word) (s : State) : (writeLength v s).buffer = s.buffer := by
  unfold writeLength; split <;> rfl
@[simp] theorem writeLength_schedule (v : Word) (s : State) : (writeLength v s).schedule = s.schedule := by
  unfold writeLength; split <;> rfl
@[simp] theorem writeLength_replies (v : Word) (s : State) : (writeLength v s).replies = s.replies := by
  unfold writeLength; split <;> rfl
@[simp] theorem writeLength_freeIndex (v : Word) (s : State) : (writeLength v s).freeIndex = s.freeIndex := by
  unfold writeLength; split <;> rfl

/-! ### A write of `CTRL` -/

@[simp] theorem writeCtrl_h (v : Word) (s : State) : (writeCtrl v s).h = s.h := by
  unfold writeCtrl; split <;> rfl
@[simp] theorem writeCtrl_k (v : Word) (s : State) : (writeCtrl v s).k = s.k := by
  unfold writeCtrl; split <;> rfl
@[simp] theorem writeCtrl_pos (v : Word) (s : State) : (writeCtrl v s).pos = s.pos := by
  unfold writeCtrl; split <;> rfl
@[simp] theorem writeCtrl_len (v : Word) (s : State) : (writeCtrl v s).len = s.len := by
  unfold writeCtrl; split <;> rfl
@[simp] theorem writeCtrl_cause (v : Word) (s : State) : (writeCtrl v s).cause = s.cause := by
  unfold writeCtrl; split <;> rfl
@[simp] theorem writeCtrl_seed (v : Word) (s : State) : (writeCtrl v s).seed = s.seed := by
  unfold writeCtrl; split <;> rfl
@[simp] theorem writeCtrl_length (v : Word) (s : State) : (writeCtrl v s).length = s.length := by
  unfold writeCtrl; split <;> rfl
@[simp] theorem writeCtrl_faddr (v : Word) (s : State) : (writeCtrl v s).faddr = s.faddr := by
  unfold writeCtrl; split <;> rfl
@[simp] theorem writeCtrl_buffer (v : Word) (s : State) : (writeCtrl v s).buffer = s.buffer := by
  unfold writeCtrl; split <;> rfl
@[simp] theorem writeCtrl_schedule (v : Word) (s : State) : (writeCtrl v s).schedule = s.schedule := by
  unfold writeCtrl; split <;> rfl
@[simp] theorem writeCtrl_replies (v : Word) (s : State) : (writeCtrl v s).replies = s.replies := by
  unfold writeCtrl; split <;> rfl
@[simp] theorem writeCtrl_freeIndex (v : Word) (s : State) : (writeCtrl v s).freeIndex = s.freeIndex := by
  unfold writeCtrl; split <;> rfl

end Sys2Proof.Machine
end

