-- ==== Sys2Proof/Laws/Exec.lean ====
section
/-! SUPPORT. What each core operation and each move can do, said once: one lemma per meaning, its
cases exactly those of the rule. -/

namespace Sys2Proof.Machine

/-- An operation ends with its writes or with fault entry on the state before it. -/
theorem complete_next_iff {s t : State} {r : Except Trap State} :
    complete s r = .next t ↔ r = .ok t ∨ ∃ f, r = .error f ∧ t = raiseFault f s := by
  cases r <;> simp [complete, eq_comm]

theorem hold_next_iff {p : OpCode} {s t : State} :
    hold p s = .next t ↔ t = { s with phase := p } := by
  simp [hold, complete, eq_comm]

theorem illegalPhase_next_iff {s t : State} :
    illegalPhase s = .next t ↔ t = raiseFault .illegalPhase s := by
  simp [illegalPhase, complete, eq_comm]

theorem blkbOp_ok_iff {s t : State} : blkbOp s = .ok t ↔
    16#64 ≤ s.len ∧ ∃ x, operandMem8 s = .ok x ∧
      { cwmixb x s with pos := s.pos + 8#64, phase := phaseBlka } = t := by
  simp [blkbOp, bind_ok_iff]

theorem blkbOp_error_iff {s : State} {f : Trap} : blkbOp s = .error f ↔
    (¬ 16#64 ≤ s.len ∧ f = .contract) ∨ (16#64 ≤ s.len ∧ operandMem8 s = .error f) := by
  simp [blkbOp, bind_error_iff]

theorem blkaOp_ok_iff {s t : State} : blkaOp s = .ok t ↔
    16#64 ≤ s.len ∧ ∃ y, operandMem8 s = .ok y ∧
      { cwmixa y s with
        pos := s.pos + 8#64, len := s.len - 16#64, phase := dispatch (s.len - 16#64) } = t := by
  simp [blkaOp, bind_ok_iff]

theorem blkaOp_error_iff {s : State} {f : Trap} : blkaOp s = .error f ↔
    (¬ 16#64 ≤ s.len ∧ f = .contract) ∨ (16#64 ≤ s.len ∧ operandMem8 s = .error f) := by
  simp [blkaOp, bind_error_iff]

theorem midbOp_ok_iff {s t : State} : midbOp s = .ok t ↔
    (8#64 ≤ s.len ∧ s.len ≤ 15#64) ∧ ∃ x, operandMem8 s = .ok x ∧
      { cwmixb x s with
        pos := s.pos + 8#64, len := s.len - 8#64, phase := dispatch (s.len - 8#64) } = t := by
  simp [midbOp, bind_ok_iff]

theorem midbOp_error_iff {s : State} {f : Trap} : midbOp s = .error f ↔
    (¬ (8#64 ≤ s.len ∧ s.len ≤ 15#64) ∧ f = .contract) ∨
      ((8#64 ≤ s.len ∧ s.len ≤ 15#64) ∧ operandMem8 s = .error f) := by
  simp only [midbOp, bind_error_iff, require_error_iff, require_ok_iff, Bool.and_eq_true,
    decide_eq_true_eq, pure_ne_error, and_false, exists_false, or_false, exists_const,
    Bool.and_eq_false_iff, decide_eq_false_iff_not, not_and_or]

theorem tailaOp_ok_iff {s t : State} : tailaOp s = .ok t ↔
    ∃ y, operandMemP s = .ok y ∧ { cwmixa y s with phase := phaseFinal } = t := by
  simp [tailaOp]

theorem tailaOp_error_iff {s : State} {f : Trap} :
    tailaOp s = .error f ↔ operandMemP s = .error f := by
  simp [tailaOp]

/-- Every core operation ends in a next state. -/
theorem complete_is_next (s : State) (r : Except Trap State) : ∃ t, complete s r = .next t := by
  cases r <;> exact ⟨_, rfl⟩

/-- With nothing scheduled the core moves. -/
theorem step_of_nil {s : State} (h : s.schedule = []) : step s = coreStep s := by
  unfold step; rw [h]

/-- A scheduled move is taken off the schedule and made. -/
theorem step_of_cons {s : State} {m : Move} {rest : List Move} (h : s.schedule = m :: rest) :
    step s = moveStep m { s with schedule := rest } := by
  unfold step; rw [h]

/-- A step is a core step or another agent's move, on the state with that move off the schedule. -/
theorem step_cases (s : State) :
    (s.schedule = [] ∧ step s = coreStep s) ∨
      ∃ m rest, s.schedule = m :: rest ∧ step s = moveStep m { s with schedule := rest } := by
  cases h : s.schedule with
  | nil => exact .inl ⟨rfl, step_of_nil h⟩
  | cons m rest => exact .inr ⟨m, rest, rfl, step_of_cons h⟩

/-- What a host write can do. -/
theorem hostWrite_next_iff {num : Nat} {v : Word} {s t : State} :
    hostWrite num v s = .next t ↔
      (num = 0 ∧ t = writeSeed v s) ∨ (num = 1 ∧ t = writeLength v s) ∨
      (num = 2 ∧ t = writeCtrl v s) ∨ (3 ≤ num ∧ num ≤ 5 ∧ t = s) := by
  rcases num with _ | _ | _ | _ | _ | _ | n <;> simp [hostWrite, eq_comm]

/-- What a host read can do. -/
theorem hostRead_next_iff {num : Nat} {s t : State} :
    hostRead num s = .next t ↔
      (num = 0 ∧ t = s.reply 0 s.seed) ∨ (num = 1 ∧ t = s.reply 1 s.length) ∨
      (num = 2 ∧ t = s.reply 2 0#64) ∨ (num = 3 ∧ t = s.reply 3 (statusWord s)) ∨
      (num = 4 ∧ t = readResult s) ∨ (num = 5 ∧ t = readFaddr s) := by
  rcases num with _ | _ | _ | _ | _ | _ | n <;> simp [hostRead, eq_comm]

/-- What a write of `CTRL` can do: START from `IDLE` or `DONE`, or nothing. -/
theorem writeCtrl_cases (v : Word) (s : State) :
    (v.getLsbD 0 = true ∧ (s.phase = phaseIdle ∨ s.phase = phaseDone) ∧
      writeCtrl v s = { s with phase := phaseInit }) ∨ writeCtrl v s = s := by
  unfold writeCtrl
  split
  · rename_i h
    simp only [Bool.and_eq_true, Bool.or_eq_true, beq_iff_eq] at h
    exact .inl ⟨h.1, h.2, rfl⟩
  · exact .inr rfl

/-- What a read of `RESULT` can do. -/
theorem readResult_cases (s : State) :
    (s.phase = phaseDone ∧ readResult s = s.reply 4 s.h) ∨
      (s.phase ≠ phaseDone ∧ readResult s = s.replyFree 4) := by
  unfold readResult
  split <;> simp_all

/-- What a read of `FADDR` can do. -/
theorem readFaddr_cases (s : State) :
    (s.cause = causeMem ∧ readFaddr s = s.reply 5 s.faddr) ∨
      (s.cause ≠ causeMem ∧ readFaddr s = s.replyFree 5) := by
  unfold readFaddr
  split <;> simp_all

/-- The next phase by the length left (42_controller R75), the length as a number. -/
theorem dispatch_cases (l : Word) :
    (16 ≤ l.toNat ∧ dispatch l = phaseBlkb) ∨
      (8 ≤ l.toNat ∧ l.toNat ≤ 15 ∧ dispatch l = phaseMidb) ∨
      (1 ≤ l.toNat ∧ l.toNat ≤ 7 ∧ dispatch l = phaseTaila) ∨
      (l.toNat = 0 ∧ dispatch l = phaseFinal) := by
  simp only [dispatch, BitVec.le_def, BitVec.lt_def, BitVec.toNat_ofNat]
  split_ifs <;> simp_all <;> omega

end Sys2Proof.Machine
end

