-- ==== Sys2Proof/Laws/PerInstr.lean ====
section
/-! SUPPORT. Statements made per operation: the family `RoundTrip`. -/

namespace Sys2Proof.Laws

/-- The decoder gives back an operation whose code it is given. -/
def RoundTrip.Statement (i : Instr) : Prop := i.wellFormed = true → decode (encode i) = i

theorem RoundTrip.idle : RoundTrip.Statement .idle := fun _ => rfl
theorem RoundTrip.init : RoundTrip.Statement .init := fun _ => rfl
theorem RoundTrip.blkb : RoundTrip.Statement .blkb := fun _ => rfl
theorem RoundTrip.blka : RoundTrip.Statement .blka := fun _ => rfl
theorem RoundTrip.midb : RoundTrip.Statement .midb := fun _ => rfl
theorem RoundTrip.taila : RoundTrip.Statement .taila := fun _ => rfl
theorem RoundTrip.final : RoundTrip.Statement .final := fun _ => rfl
theorem RoundTrip.done : RoundTrip.Statement .done := fun _ => rfl
theorem RoundTrip.fault : RoundTrip.Statement .fault := fun _ => rfl
theorem RoundTrip.reserved9 : RoundTrip.Statement .reserved9 := fun _ => rfl

theorem RoundTrip.reserved10to11 (op : OpCode) : RoundTrip.Statement (.reserved10to11 op) := by
  revert op; unfold RoundTrip.Statement; decide

theorem RoundTrip.reserved12to15 (op : OpCode) : RoundTrip.Statement (.reserved12to15 op) := by
  revert op; unfold RoundTrip.Statement; decide

end Sys2Proof.Laws
end

