-- ==== Sys2Proof/Tests/Slice0.lean ====
section
/-! SUPPORT. The model's own tests. Expected values are the spec's: the opcode map (30_encoding R51),
the worked examples of the rules and the vectors of spec/95_test_vectors.md; the source of each is in
its comment. The `witness_` theorems show that the hypotheses of each statement can be met, clause by
clause, at the ends of their ranges. -/

namespace Sys2Proof.Tests

open Sys2Proof.Machine Sys2Proof.Safety

/-! ### Helpers -/

/-- A small state: phase, accumulators, cursor, remaining length, buffer. -/
def st (phase : OpCode) (h k pos len : Word) (m : Memory) : State :=
  { State.reset with phase := phase, h := h, k := k, pos := pos, len := len, buffer := m }

/-- A state in phase `p` of a run over `n` bytes with `pos` consumed and `len` left. -/
def run (p : OpCode) (n pos len : Word) (m : Memory) : State :=
  { State.reset with phase := p, length := n, pos := pos, len := len, buffer := m }

/-- The bytes `first, first+1, …` at indices `a, a+1, …`. -/
def rising (a first : Nat) (n : Nat) : Memory :=
  (List.range n).map fun j => (a + j, BitVec.ofNat 8 (first + j))

/-- The state an outcome leads to, if it leads to one. -/
def after (o : Host.Outcome State Fault Refusal) : Option State :=
  match o with
  | .next t => some t
  | .fault _ => none
  | .refused _ => none

/-- `H` and `K` after an outcome. -/
def accs (o : Host.Outcome State Fault Refusal) : Option (Word × Word) :=
  (after o).map fun t => (t.h, t.k)

/-- `PHASE`, `POS` and `LEN` after an outcome. -/
def cursor (o : Host.Outcome State Fault Refusal) : Option (OpCode × Word × Word) :=
  (after o).map fun t => (t.phase, t.pos, t.len)

/-- `PHASE`, `CAUSE` and `FADDR` after an outcome. -/
def faultOf (o : Host.Outcome State Fault Refusal) : Option (OpCode × BitVec 2 × Word) :=
  (after o).map fun t => (t.phase, t.cause, t.faddr)

/-! ### Well-formedness: each check refuses an ill-formed term -/

theorem test_wellFormed_refuses_code_outside_10_to_11 :
    (Instr.reserved10to11 12#4).wellFormed = false := by decide

theorem test_wellFormed_refuses_code_outside_12_to_15 :
    (Instr.reserved12to15 11#4).wellFormed = false := by decide

theorem test_wellFormed_admits_both_rows : (Instr.reserved10to11 11#4).wellFormed = true ∧
    (Instr.reserved12to15 12#4).wellFormed = true := by decide

/-! ### Decoding: the words of 30_encoding R51, column `op` (binary) -/

theorem test_decode_idle : decode 0b0000#4 = .idle := by decide
theorem test_decode_init : decode 0b0001#4 = .init := by decide
theorem test_decode_blkb : decode 0b0010#4 = .blkb := by decide
theorem test_decode_blka : decode 0b0011#4 = .blka := by decide
theorem test_decode_midb : decode 0b0100#4 = .midb := by decide
theorem test_decode_taila : decode 0b0101#4 = .taila := by decide
theorem test_decode_final : decode 0b0110#4 = .final := by decide
theorem test_decode_done : decode 0b0111#4 = .done := by decide
theorem test_decode_fault : decode 0b1000#4 = .fault := by decide
theorem test_decode_reserved9 : decode 0b1001#4 = .reserved9 := by decide
theorem test_decode_reserved10to11 : decode 0b1010#4 = .reserved10to11 10#4 ∧
    decode 0b1011#4 = .reserved10to11 11#4 := by decide
theorem test_decode_reserved12to15 : decode 0b1100#4 = .reserved12to15 12#4 ∧
    decode 0b1111#4 = .reserved12to15 15#4 := by decide

/-- A table word of one byte: code 5 is TAILA; bit 4 set is no word of format `P`. -/
theorem test_decodeTableWord :
    decodeTableWord 8 5 = some .taila ∧ decodeTableWord 8 21 = none := by decide

theorem test_withFetchWord_runs_next :
    step (State.reset.withFetchWord 8 9) = exec .reserved9 (State.reset.withFetchWord 8 9) := rfl

/-! ### One step each (values: 42_controller R77 to R82, 95_test_vectors sections 5, 7 and 9) -/

/-- P3 step 1. -/
theorem test_init : (after (exec .init { st 1#4 0#64 0#64 0#64 0#64 [] with
      seed := 0x0123456789abcdef#64, length := 31#64 })).map
      (fun t => (t.h, t.k, t.pos, t.len, t.phase)) =
    some (0x0123456789abcdef#64, 0x8bba514ed23ba863#64, 0#64, 31#64, 2#4) := by decide

/-- Section 5, INIT corners, last row: the sum wraps twice. -/
theorem test_init_wraps : accs (exec .init { st 1#4 0#64 0#64 0#64 0#64 [] with
      seed := 0xffffffffffffffff#64, length := 0xffffffffffffffff#64 }) =
    some (0xffffffffffffffff#64, 0x8a970be7488fda53#64) := by decide

/-- P3 step 2. -/
theorem test_blkb :
    accs (exec .blkb (st 2#4 0x0123456789abcdef#64 0x8bba514ed23ba863#64 0#64 31#64
      (rising 0 1 8))) = some (0xe2e4705dc2e849ba#64, 0x8fe2d48c18b00de0#64) := by decide

/-- Section 7, FC: the second read is refused, nothing but the fault record changes. -/
theorem test_blkb_refused :
    exec .blkb (st 2#4 0#64 0x8a970be7488fda65#64 0#64 16#64 (rising 0 1 4)) =
      .next { st 8#4 0#64 0x8a970be7488fda65#64 0#64 16#64 (rising 0 1 4) with
        cause := 1#2, faddr := 4#64 } := rfl

/-- P3 step 3. -/
theorem test_blka :
    accs (exec .blka (st 3#4 0xe2e4705dc2e849ba#64 0x8fe2d48c18b00de0#64 8#64 31#64
      (rising 8 9 8))) = some (0xeb8065291a846dfd#64, 0xf3719d0eeac3f549#64) := by decide

/-- P3 step 3, cursor and next phase. -/
theorem test_blka_cursor : cursor (exec .blka (st 3#4 0#64 0#64 8#64 31#64 (rising 8 9 8))) =
    some (4#4, 16#64, 15#64) := by decide

/-- P3 step 4. -/
theorem test_midb :
    accs (exec .midb (st 4#4 0xeb8065291a846dfd#64 0xf3719d0eeac3f549#64 16#64 15#64
      (rising 16 17 8))) = some (0x47668103ddb21458#64, 0xfe7b35aaf9e926bd#64) := by decide

/-- Section 5, unreachable states: `LEN = 16` in MIDB. -/
theorem test_midb_contract : faultOf (exec .midb (st 4#4 0#64 0#64 0#64 16#64 (rising 0 1 8))) =
    some (8#4, 3#2, 0#64) := by decide

/-- P3 step 5: seven bytes, the irregular packing. -/
theorem test_taila :
    accs (exec .taila (st 5#4 0x47668103ddb21458#64 0xfe7b35aaf9e926bd#64 24#64 7#64
      (rising 24 25 7))) = some (0x4776ee957aa5b1d7#64, 0x56bbe753ea380b80#64) := by decide

/-- P6 step 3: one byte 9; the `hi` word is 0, so `H` stays. -/
theorem test_taila_one_byte :
    accs (exec .taila (st 5#4 0xe3c7353a4b438455#64 0x8ecf8e2582047fdd#64 8#64 1#64
      (rising 8 9 1))) = some (0xe3c7353a4b438455#64, 0xcd97c199623cd174#64) := by decide

/-- P1 step 2: the empty input with seed 0. -/
theorem test_final_empty :
    accs (exec .final (st 6#4 0#64 0x8a970be7488fda55#64 0#64 0#64 [])) =
      some (0xb38d4df08cc54ec4#64, 0x81e053e666908eb6#64) := by decide

/-- P3 step 6. -/
theorem test_final :
    accs (exec .final (st 6#4 0x4776ee957aa5b1d7#64 0x56bbe753ea380b80#64 24#64 7#64 [])) =
      some (0xe742481d14af60ff#64, 0x0f4a98552f474982#64) := by decide

/-- R76, R83, R84. -/
theorem test_waiting_phases_hold :
    exec .idle (st 0#4 1#64 2#64 3#64 4#64 []) = .next (st 0#4 1#64 2#64 3#64 4#64 []) ∧
    exec .done (st 7#4 1#64 2#64 3#64 4#64 []) = .next (st 7#4 1#64 2#64 3#64 4#64 []) ∧
    exec .fault (st 8#4 1#64 2#64 3#64 4#64 []) = .next (st 8#4 1#64 2#64 3#64 4#64 []) :=
  ⟨rfl, rfl, rfl⟩

/-- Section 5, unreachable states: `PHASE = 9` (or 10 .. 15). -/
theorem test_reserved_codes :
    faultOf (coreStep (st 9#4 0#64 0#64 0#64 0#64 [])) = some (8#4, 2#2, 0#64) ∧
    faultOf (coreStep (st 11#4 0#64 0#64 0#64 0#64 [])) = some (8#4, 2#2, 0#64) ∧
    faultOf (coreStep (st 15#4 0#64 0#64 0#64 0#64 [])) = some (8#4, 2#2, 0#64) := by decide

/-! ### The extractor and the product (95_test_vectors sections 2 and 3) -/

/-- The bytes `F = ff 80 fe 81 ff ff ff ff` of section 2. -/
def bufferF : Memory :=
  [(0, 0xff#8), (1, 0x80#8), (2, 0xfe#8), (3, 0x81#8), (4, 0xff#8), (5, 0xff#8), (6, 0xff#8),
    (7, 0xff#8)]

theorem test_get32_high_bit : get32 bufferF 0#64 = .ok 0x81fe80ff#32 := rfl
theorem test_get64_high_bit : get64 bufferF 0#64 = .ok 0xffffffff81fe80ff#64 := rfl
theorem test_getP64_five : getP64 bufferF 0#64 5 = .ok 0x00000081fe80ffff#64 := rfl
theorem test_getP64_seven : getP64 bufferF 0#64 7 = .ok 0x0081fe80ffffffff#64 := rfl
theorem test_getP64_range : getP64 bufferF 0#64 8 = .error .contract ∧
    getP64 bufferF 0#64 0 = .error .contract := ⟨rfl, rfl⟩

/-- Section 3, the row with the largest carry and the row of 9 and `M`. -/
theorem test_product :
    (productLo 0x1ffffffff#64 0x1ffffffff#64, productHi 0x1ffffffff#64 0x1ffffffff#64) =
      (0xfffffffc00000001#64, 3#64) ∧
    (productLo 9#64 foldM, productHi 9#64 foldM) = (0x43584fbce038aea9#64, 0#64) := by decide

/-! ### The host's steps (95_test_vectors section 7) -/

theorem test_start_ignores_bit_1 : hostStep (.wr 2 3#64) (st 0#4 0#64 0#64 0#64 0#64 []) =
    .next (st 1#4 0#64 0#64 0#64 0#64 []) := rfl
theorem test_start_needs_bit_0 :
    hostStep (.wr 2 0xfffffffffffffffe#64) (st 0#4 0#64 0#64 0#64 0#64 []) =
      .next (st 0#4 0#64 0#64 0#64 0#64 []) := rfl
theorem test_start_ignored_in_blka_and_fault :
    hostStep (.wr 2 1#64) (st 3#4 0#64 0#64 0#64 0#64 []) =
      .next (st 3#4 0#64 0#64 0#64 0#64 []) ∧
    hostStep (.wr 2 1#64) (st 8#4 0#64 0#64 0#64 0#64 []) =
      .next (st 8#4 0#64 0#64 0#64 0#64 []) := ⟨rfl, rfl⟩

/-- Section 7 and 43_host R93. -/
theorem test_status_values :
    statusWord (st 1#4 0#64 0#64 0#64 0#64 []) = 0x101#64 ∧
    statusWord (st 7#4 0#64 0#64 0#64 0#64 []) = 0x702#64 ∧
    statusWord { st 8#4 0#64 0#64 0#64 0#64 [] with cause := 1#2 } = 0x814#64 ∧
    statusWord { st 8#4 0#64 0#64 0#64 0#64 [] with cause := 3#2 } = 0x834#64 := by decide

/-- A schedule is played from its head: the host's START, then the core's INIT. -/
theorem test_schedule :
    step { State.reset with schedule := [.host (.wr 2 1#64), .core] } =
      .next { State.reset with phase := 1#4, schedule := [.core] } := rfl

/-! ### Witnesses: states that meet the hypotheses of the statements -/

theorem witness_TableWordsDecode : (16 : Nat) ≤ 16 ∧ (3 : Nat) < 4 := by decide

theorem witness_StepRunsDecodedOperation :
    decode (st 2#4 0#64 0#64 0#64 16#64 []).phase = .blkb ∧
    (st 2#4 0#64 0#64 0#64 16#64 []).schedule = [] ∧
    ({ State.reset with schedule := [.core] } : State).schedule = .core :: [] := by decide

theorem witness_StepMakesScheduledMove :
    ({ State.reset with schedule := [.host .reset] } : State).schedule = .host .reset :: [] ∧
    ({ State.reset with schedule := [.place 0#64 1#8] } : State).schedule = .place 0#64 1#8 :: [] ∧
    ({ State.reset with schedule := [.withdraw 0#64] } : State).schedule = .withdraw 0#64 :: [] := by
  decide

theorem witness_WaitingOperationsChangeNothing :
    State.reset.phase = 0#4 ∧ (st 7#4 0#64 0#64 0#64 0#64 []).phase = 7#4 ∧
    (st 8#4 0#64 0#64 0#64 0#64 []).phase = 8#4 := by decide

theorem witness_OpcodeMapOfFormatP :
    (10#4 = 0b1010#4 ∨ 10#4 = 0b1011#4) ∧ (0b1100#4 : OpCode) ≤ 12#4 := by decide

theorem witness_DecodeAndEncodeAgree : (Instr.reserved10to11 10#4).wellFormed = true ∧
    (Instr.reserved12to15 15#4).wellFormed = true ∧ Instr.init.wellFormed = true := by decide

theorem witness_ReservedCodesRaiseIllegalPhase : (9#4 : OpCode) ≤ 9#4 ∧ (9#4 : OpCode) ≤ 15#4 := by
  decide

/-- BLKB and BLKA, the clause of the result: the shortest length, at the last cursor. -/
theorem witness_block_result :
    let s := st 2#4 0#64 0#64 0xfffffffffffffff8#64 16#64 (rising 0xfffffffffffffff8 1 8)
    let bs : List Byte := [1#8, 2#8, 3#8, 4#8, 5#8, 6#8, 7#8, 8#8]
    16 ≤ s.len.toNat ∧ s.pos.toNat + 8 ≤ 2 ^ 64 ∧ bs.length = 8 ∧
      Holds s.buffer s.pos.toNat bs := by unfold Holds; decide

/-- BLKB and BLKA, the fault clauses. -/
theorem witness_block_faults :
    (st 2#4 0#64 0#64 0#64 15#64 []).len.toNat < 16 ∧
    (let s := st 2#4 0#64 0#64 0#64 16#64 [];
      16 ≤ s.len.toNat ∧ s.pos.toNat + 8 ≤ 2 ^ 64 ∧ ¬ AllReadable s.buffer s.pos.toNat 4) ∧
    (let s := st 2#4 0#64 0#64 0#64 16#64 (rising 0 1 7);
      16 ≤ s.len.toNat ∧ s.pos.toNat + 8 ≤ 2 ^ 64 ∧ AllReadable s.buffer s.pos.toNat 4 ∧
        ¬ AllReadable s.buffer (s.pos.toNat + 4) 4) := by unfold AllReadable; decide

/-- MIDB, the clause of the result, at both ends of `LEN`. -/
theorem witness_MidbFoldsMidBlock_result :
    let bs : List Byte := [1#8, 2#8, 3#8, 4#8, 5#8, 6#8, 7#8, 8#8]
    let s := st 4#4 0#64 0#64 0#64 8#64 (rising 0 1 8)
    let t := st 4#4 0#64 0#64 0#64 15#64 (rising 0 1 8)
    (8 ≤ s.len.toNat ∧ s.len.toNat ≤ 15 ∧ s.pos.toNat + 8 ≤ 2 ^ 64 ∧ bs.length = 8 ∧
      Holds s.buffer s.pos.toNat bs) ∧
    (8 ≤ t.len.toNat ∧ t.len.toNat ≤ 15 ∧ t.pos.toNat + 8 ≤ 2 ^ 64 ∧
      Holds t.buffer t.pos.toNat bs) := by unfold Holds; decide

/-- MIDB, the fault clauses. -/
theorem witness_MidbFoldsMidBlock_faults :
    (st 4#4 0#64 0#64 0#64 7#64 []).len.toNat < 8 ∧
    15 < (st 4#4 0#64 0#64 0#64 16#64 []).len.toNat ∧
    (let s := st 4#4 0#64 0#64 0#64 8#64 (rising 0 1 3);
      8 ≤ s.len.toNat ∧ s.len.toNat ≤ 15 ∧ s.pos.toNat + 8 ≤ 2 ^ 64 ∧
        ¬ AllReadable s.buffer s.pos.toNat 4) ∧
    (let s := st 4#4 0#64 0#64 0#64 15#64 (rising 0 1 7);
      8 ≤ s.len.toNat ∧ s.len.toNat ≤ 15 ∧ s.pos.toNat + 8 ≤ 2 ^ 64 ∧
        AllReadable s.buffer s.pos.toNat 4 ∧ ¬ AllReadable s.buffer (s.pos.toNat + 4) 4) := by
  unfold AllReadable; decide

/-- TAILA, the clause of the result, at both ends of `LEN`. -/
theorem witness_TailaFoldsTail_result :
    (let s := st 5#4 0#64 0#64 0xffffffffffffffff#64 1#64 (rising 0xffffffffffffffff 9 1);
      1 ≤ s.len.toNat ∧ s.len.toNat ≤ 7 ∧ s.pos.toNat + s.len.toNat ≤ 2 ^ 64 ∧
        [9#8].length = s.len.toNat ∧ Holds s.buffer s.pos.toNat [9#8]) ∧
    (let s := st 5#4 0#64 0#64 0#64 7#64 (rising 0 1 7);
      let bs : List Byte := [1#8, 2#8, 3#8, 4#8, 5#8, 6#8, 7#8];
      1 ≤ s.len.toNat ∧ s.len.toNat ≤ 7 ∧ s.pos.toNat + s.len.toNat ≤ 2 ^ 64 ∧
        bs.length = s.len.toNat ∧ Holds s.buffer s.pos.toNat bs) := by unfold Holds; decide

/-- TAILA, the fault clauses. -/
theorem witness_TailaFoldsTail_faults :
    (st 5#4 0#64 0#64 0#64 0#64 []).len.toNat = 0 ∧
    7 < (st 5#4 0#64 0#64 0#64 8#64 []).len.toNat ∧
    (let s := st 5#4 0#64 0#64 0#64 1#64 [];
      1 ≤ s.len.toNat ∧ s.len.toNat ≤ 7 ∧ s.pos.toNat + s.len.toNat ≤ 2 ^ 64 ∧
        ¬ AllReadable s.buffer s.pos.toNat (min s.len.toNat 4)) ∧
    (let s := st 5#4 0#64 0#64 0#64 7#64 (rising 0 1 3);
      1 ≤ s.len.toNat ∧ s.len.toNat ≤ 7 ∧ s.pos.toNat + s.len.toNat ≤ 2 ^ 64 ∧
        ¬ AllReadable s.buffer s.pos.toNat (min s.len.toNat 4)) ∧
    (let s := st 5#4 0#64 0#64 0#64 5#64 (rising 0 1 4);
      5 ≤ s.len.toNat ∧ s.len.toNat ≤ 7 ∧ s.pos.toNat + s.len.toNat ≤ 2 ^ 64 ∧
        AllReadable s.buffer s.pos.toNat 4 ∧
        ¬ AllReadable s.buffer (s.pos.toNat + 4) (s.len.toNat - 4)) ∧
    (let s := st 5#4 0#64 0#64 0#64 7#64 (rising 0 1 6);
      5 ≤ s.len.toNat ∧ s.len.toNat ≤ 7 ∧ s.pos.toNat + s.len.toNat ≤ 2 ^ 64 ∧
        AllReadable s.buffer s.pos.toNat 4 ∧
        ¬ AllReadable s.buffer (s.pos.toNat + 4) (s.len.toNat - 4)) := by
  unfold AllReadable; decide

/-- R82's example for the empty input. -/
theorem witness_FinalMixesAccumulators :
    let s := st 6#4 0#64 0x8a970be7488fda55#64 0#64 0#64 []
    (0x152e17ce911fb4aa#64 : Word) = s.h ^^^ (s.k + 0x8a970be7488fda55#64) ∧
    (0x326d1e16ea55c072#64 : Word) =
      s.h ^^^ productLo 0x152e17ce911fb4aa#64 0x8a970be7488fda55#64 ∧
    (0x81e053e666908eb6#64 : Word) =
      s.k ^^^ productHi 0x152e17ce911fb4aa#64 0x8a970be7488fda55#64 := by decide

theorem witness_DispatchByLength :
    16 ≤ (16#64 : Word).toNat ∧ (8 ≤ (8#64 : Word).toNat ∧ (15#64 : Word).toNat < 16) ∧
    (0 < (1#64 : Word).toNat ∧ (7#64 : Word).toNat < 8) ∧ (0#64 : Word).toNat = 0 := by decide

theorem witness_OperationsWriteOnlyTheirRegisters :
    exec .idle State.reset = .next State.reset ∧
    Instr.idle ∉ [Instr.init, .blkb, .blka, .midb, .taila, .final] ∧
    Instr.taila ∉ [Instr.init, .blkb, .blka, .midb] ∧
    Instr.blkb ∉ [Instr.init, .blka, .midb] ∧ State.reset.phase ≠ 8#4 :=
  ⟨rfl, by decide, by decide, by decide, by decide⟩

theorem witness_FaultEntryReplacesEveryWrite :
    Instr.reserved9 ≠ .fault ∧
    exec .reserved9 State.reset = .next { State.reset with phase := 8#4, cause := 2#2 } ∧
    ({ State.reset with phase := 8#4, cause := 2#2 } : State).phase = 8#4 :=
  ⟨by decide, rfl, rfl⟩

/-- The 4-byte and the 1-to-3-byte reads, at the ends of the index space and of `available`. -/
theorem witness_WordReadsAreLittleEndian :
    (let i : Word := 0xfffffffffffffffc#64;
      i.toNat + 4 ≤ 2 ^ 64 ∧ [1#8, 2#8, 3#8, 4#8].length = 4 ∧
        Holds (rising 0xfffffffffffffffc 1 4) i.toNat [1#8, 2#8, 3#8, 4#8]) ∧
    ((6#64 : Word).toNat + 4 ≤ 2 ^ 64 ∧ ¬ AllReadable (rising 0 1 9) (6#64 : Word).toNat 4) ∧
    (1 ≤ [9#8].length ∧ [9#8].length ≤ 3 ∧ (8#64 : Word).toNat + 1 ≤ 2 ^ 64 ∧
      Holds (rising 0 1 9) (8#64 : Word).toNat [9#8]) ∧
    (1 ≤ [7#8, 8#8, 9#8].length ∧ [7#8, 8#8, 9#8].length ≤ 3 ∧
      Holds (rising 0 1 9) (6#64 : Word).toNat [7#8, 8#8, 9#8]) ∧
    ((3 : Nat) ≤ 3 ∧ (7#64 : Word).toNat + 3 ≤ 2 ^ 64 ∧
      ¬ AllReadable (rising 0 1 9) (7#64 : Word).toNat 3) ∧
    ((0 : Nat) < 1 ∧ (3 : Nat) < 4) := by unfold Holds AllReadable; decide

theorem witness_Get64IsLittleEndian :
    (let i : Word := 0xfffffffffffffff8#64;
      i.toNat + 8 ≤ 2 ^ 64 ∧ Holds (rising 0xfffffffffffffff8 1 8) i.toNat
        [1#8, 2#8, 3#8, 4#8, 5#8, 6#8, 7#8, 8#8]) ∧
    ((0#64 : Word).toNat + 8 ≤ 2 ^ 64 ∧ ¬ AllReadable (rising 0 1 3) (0#64 : Word).toNat 4) ∧
    (AllReadable (rising 0 1 4) (0#64 : Word).toNat 4 ∧
      ¬ AllReadable (rising 0 1 4) ((0#64 : Word).toNat + 4) 4) := by
  unfold Holds AllReadable; decide

theorem witness_GetP64PacksTheTail :
    (1 ≤ [1#8].length ∧ [1#8].length ≤ 4 ∧ (0#64 : Word).toNat + 1 ≤ 2 ^ 64 ∧
      Holds (rising 0 1 7) (0#64 : Word).toNat [1#8]) ∧
    ([1#8, 2#8, 3#8, 4#8].length ≤ 4 ∧
      Holds (rising 0 1 7) (0#64 : Word).toNat [1#8, 2#8, 3#8, 4#8]) ∧
    ((0xfffffffffffffffb#64 : Word).toNat + 5 ≤ 2 ^ 64 ∧
      Holds (rising 0xfffffffffffffffb 1 5) (0xfffffffffffffffb#64 : Word).toNat
        [1#8, 2#8, 3#8, 4#8, 5#8]) ∧
    ((0#64 : Word).toNat + 6 ≤ 2 ^ 64 ∧
      Holds (rising 0 1 7) (0#64 : Word).toNat [1#8, 2#8, 3#8, 4#8, 5#8, 6#8]) ∧
    ((0#64 : Word).toNat + 7 ≤ 2 ^ 64 ∧
      Holds (rising 0 1 7) (0#64 : Word).toNat [1#8, 2#8, 3#8, 4#8, 5#8, 6#8, 7#8]) ∧
    ((0 : Nat) < 1 ∧ (7 : Nat) < 8) ∧
    ((1 : Nat) ≤ 7 ∧ (0#64 : Word).toNat + 7 ≤ 2 ^ 64 ∧
      ¬ AllReadable (rising 0 1 3) (0#64 : Word).toNat (min 7 4)) ∧
    ((5 : Nat) ≤ 5 ∧ (0#64 : Word).toNat + 5 ≤ 2 ^ 64 ∧
      AllReadable (rising 0 1 4) (0#64 : Word).toNat 4 ∧
      ¬ AllReadable (rising 0 1 4) ((0#64 : Word).toNat + 4) (5 - 4)) := by
  unfold Holds AllReadable; decide

theorem witness_ProductHighWordLacksTwoTerms : 2 ≤ (9#64 : Word).toNat % 2 ^ 32 := by decide

theorem witness_ProductNeverWraps :
    let a : Word := 0x1ffffffff#64
    (0xffffffff : Nat) = a.toNat % 2 ^ 32 ∧ (1 : Nat) = a.toNat / 2 ^ 32 ∧
    (0xfffffffe00000001 : Nat) = 0xffffffff * 0xffffffff ∧ (0xffffffff : Nat) = 1 * 0xffffffff ∧
    (0x2fffffffc : Nat) = 0xfffffffe00000001 / 2 ^ 32 + 0xffffffff % 2 ^ 32 +
      0xffffffff % 2 ^ 32 := by decide

/-- A state in the middle of a run over 31 bytes, in the phase BLKA. -/
def midRun : State := run 3#4 31#64 8#64 31#64 (rising 0 1 31)

theorem witness_EveryStepKeepsInv : StateInv midRun ∧
    ∃ t, step midRun = .next t := by
  refine ⟨?_, _, rfl⟩
  unfold StateInv PositionInv CauseInv
  decide

theorem witness_ResetMeetsInv : midRun.buffer.wf = true := by decide

theorem witness_NoFaultUnderHostDuty :
    StateInv midRun ∧ BufferReady midRun ∧ midRun.phase ≠ 8#4 := by
  unfold StateInv PositionInv CauseInv BufferReady
  decide

theorem witness_PendingResultIsKept :
    StateInv midRun ∧ BufferReady midRun ∧ busy midRun = true ∧ QuietNext midRun ∧
    QuietNext { midRun with schedule := [.host (.rd 3), .host .reset] } ∧
    ∃ t, step midRun = .next t := by
  refine ⟨?_, ?_, ?_, ?_, ?_, _, rfl⟩
  · exact witness_EveryStepKeepsInv.1
  · exact witness_NoFaultUnderHostDuty.2.1
  · decide
  · unfold QuietNext; decide
  · unfold QuietNext; decide

/-- The empty input and one that takes every operation. -/
theorem witness_RunDeliversHash :
    (let s := run 1#4 0#64 0#64 0#64 [];
      s.phase = 1#4 ∧ s.schedule = [] ∧ BufferReady s ∧ 0 < runSteps s.length.toNat) ∧
    (let s := run 1#4 31#64 0#64 0#64 (rising 0 1 31);
      s.phase = 1#4 ∧ s.schedule = [] ∧ BufferReady s ∧ 5 < runSteps s.length.toNat) := by
  unfold BufferReady
  decide

theorem witness_BytesBeyondLengthHaveNoEffect :
    StateInv midRun ∧
    (∀ i < midRun.length.toNat, (rising 0 1 40).read i = midRun.buffer.read i) ∧
    ∃ t, coreStep midRun = .next t :=
  ⟨witness_EveryStepKeepsInv.1, by decide, _, rfl⟩

theorem witness_ArgumentWritesOutsideBusy :
    (1 ≤ (st 1#4 0#64 0#64 0#64 0#64 []).phase.toNat ∧
      (st 6#4 0#64 0#64 0#64 0#64 []).phase.toNat ≤ 6) ∧
    State.reset.phase.toNat = 0 ∧ 6 < (st 7#4 0#64 0#64 0#64 0#64 []).phase.toNat := by decide

theorem witness_StartFromIdleOrDone :
    ((1#64 : Word).toNat % 2 = 1 ∧ State.reset.phase = 0#4 ∧
      (st 7#4 0#64 0#64 0#64 0#64 []).phase = 7#4) ∧
    ((2#64 : Word).toNat % 2 = 0 ∧ midRun.phase ≠ 0#4 ∧ midRun.phase ≠ 7#4) := by decide

theorem witness_ResultReadsHInDone :
    (st 7#4 5#64 0#64 0#64 0#64 []).phase = 7#4 ∧ State.reset.phase ≠ 7#4 := by decide

theorem witness_RemainingHostAccesses :
    ({ st 8#4 0#64 0#64 0#64 0#64 [] with cause := 1#2 } : State).cause = 1#2 ∧
    State.reset.cause ≠ 1#2 := by decide

theorem witness_OtherRegisterNumbersAreRefused : (6 : Nat) ≤ 6 := by decide

theorem witness_HostStepsRaiseNoFault :
    hostStep (.wr 0 5#64) (st 8#4 0#64 0#64 0#64 0#64 []) =
      .next { st 8#4 0#64 0#64 0#64 0#64 [] with seed := 5#64 } ∧
    ({ st 8#4 0#64 0#64 0#64 0#64 [] with seed := 5#64 } : State).phase = 8#4 ∧
    HostStep.wr 0 5#64 ≠ .reset := ⟨rfl, by decide, by decide⟩

theorem witness_FaultIsSticky :
    let s : State := { st 8#4 0#64 0#64 0#64 0#64 [] with schedule := [.host (.wr 2 1#64)] }
    s.phase = 8#4 ∧ NoResetNext s ∧ step s = .next (st 8#4 0#64 0#64 0#64 0#64 []) :=
  ⟨by decide, by unfold NoResetNext; decide, rfl⟩

theorem witness_IdleAndDoneAreLeftByStart :
    let s : State := { st 7#4 0#64 0#64 0#64 0#64 [] with schedule := [.host (.wr 2 1#64)] }
    (s.phase = 0#4 ∨ s.phase = 7#4) ∧ NoResetNext s ∧
      step s = .next (st 1#4 0#64 0#64 0#64 0#64 []) :=
  ⟨by decide, by unfold NoResetNext; decide, rfl⟩

theorem witness_BusyFreezesArguments :
    let s : State := { midRun with schedule := [.host (.wr 1 0#64)] }
    busy s = true ∧ NoResetNext s ∧ step s = .next midRun :=
  ⟨by decide, by unfold NoResetNext; decide, rfl⟩

theorem witness_BufferMovesChangeOneByte :
    (1 : Nat) ≠ (0#64 : Word).toNat ∧ midRun.buffer.wf = true := by decide

end Sys2Proof.Tests
end

section
/-! The word extractor (40_extract R55 to R58): what each primitive answers on bytes that stand in
the buffer, and which refused read it reports. -/

namespace Sys2Proof.Machine

open Sys2Proof.Safety

/-! ### The sequencing of faults, as equations -/

theorem ok_bind {α β : Type} (a : α) (f : α → Except Trap β) : (Except.ok a >>= f) = f a := rfl

theorem error_bind {α β : Type} (t : Trap) (f : α → Except Trap β) :
    (Except.error t >>= f) = Except.error t := rfl

/-! ### Parts of a byte string -/

theorem holds_take {m : Memory} {a : Nat} {bs : List Byte} (h : Holds m a bs) (n : Nat) :
    Holds m a (bs.take n) := by
  intro j hj
  simpa using h j (by rw [List.length_take] at hj; omega)

theorem holds_drop {m : Memory} {a : Nat} {bs : List Byte} (h : Holds m a bs) (n : Nat) :
    Holds m (a + n) (bs.drop n) := by
  intro j hj
  simpa [Nat.add_assoc] using h (n + j) (by rw [List.length_drop] at hj; omega)

theorem leValue_append (xs ys : List Byte) :
    leValue (xs ++ ys) = leValue xs + 256 ^ xs.length * leValue ys := by
  induction xs with
  | nil => simp [leValue]
  | cons x xs ih => simp only [List.cons_append, leValue, ih, List.length_cons]; ring

theorem leValue_eq_take_add_drop {bs : List Byte} {n : Nat} (h : n ≤ bs.length) :
    leValue bs = leValue (bs.take n) + 256 ^ n * leValue (bs.drop n) := by
  conv_lhs => rw [← List.take_append_drop n bs]
  rw [leValue_append, List.length_take_of_le h]

theorem leValue_lt_two_pow {bs : List Byte} {n : Nat} (h : bs.length ≤ n) :
    leValue bs < 2 ^ (8 * n) :=
  calc leValue bs < 256 ^ bs.length := leValue_lt bs
    _ ≤ 256 ^ n := Nat.pow_le_pow_right (by decide) h
    _ = 2 ^ (8 * n) := by rw [Nat.pow_mul]

/-! ### Words joined bit by bit -/

theorem toNat_append_eq_add {v w : Nat} (x : BitVec v) (y : BitVec w) :
    (x ++ y).toNat = x.toNat * 2 ^ w + y.toNat := by
  rw [BitVec.toNat_append, ← Nat.shiftLeft_add_eq_or_of_lt y.isLt, Nat.shiftLeft_eq]

/-- A low part that fits into the vacated bits is joined to a shifted word as a sum (R57, R58). -/
theorem shiftLeft_or_eq_ofNat {high low : Half} {k : Nat} (h : low.toNat < 2 ^ k) :
    (high.setWidth 64 <<< k) ||| low.setWidth 64 =
      BitVec.ofNat 64 (high.toNat * 2 ^ k + low.toNat) := by
  have hhigh : high.toNat % 2 ^ 64 = high.toNat := Nat.mod_eq_of_lt (by omega)
  rw [← Nat.shiftLeft_eq, Nat.shiftLeft_add_eq_or_of_lt h, BitVec.ofNat_or]
  apply BitVec.eq_of_toNat_eq
  simp only [BitVec.toNat_or, BitVec.toNat_shiftLeft, BitVec.toNat_setWidth, BitVec.toNat_ofNat,
    hhigh]

theorem assemble_eq_ofNat {bs : List Byte} (h : bs.length ≤ 4) :
    assembleFrom 0 bs = BitVec.ofNat 32 (leValue bs) := by
  rw [← assemble_toNat h, BitVec.ofNat_toNat, BitVec.setWidth_eq]

theorem assemble_setWidth_eq_ofNat {bs : List Byte} (h : bs.length ≤ 4) :
    (assembleFrom 0 bs).setWidth 64 = BitVec.ofNat 64 (leValue bs) := by
  rw [← assemble_toNat h, BitVec.ofNat_toNat]

/-! ### The answers of `GET32` and `GETP32` -/

theorem get32_of_holds {m : Memory} {i : Word} {bs : List Byte} (hend : i.toNat + 4 ≤ 2 ^ 64)
    (hl : bs.length = 4) (h : Holds m i.toNat bs) : get32 m i = .ok (assembleFrom 0 bs) :=
  get32_ok_iff.2 ⟨bs, hl ▸ memRead_eq_ok_of_holds (hl.symm ▸ hend) h, rfl⟩

theorem get32_of_allReadable {m : Memory} {i : Word} (hend : i.toNat + 4 ≤ 2 ^ 64)
    (h : AllReadable m i.toNat 4) : ∃ w, get32 m i = .ok w := by
  obtain ⟨bs, hl, hb⟩ := exists_holds_of_allReadable h
  exact ⟨_, get32_of_holds hend hl hb⟩

theorem get32_of_not_allReadable {m : Memory} {i : Word} (hend : i.toNat + 4 ≤ 2 ^ 64)
    (h : ¬ AllReadable m i.toNat 4) : get32 m i = .error (.mem i) :=
  get32_error_iff.2 (memRead_error_of_not_allReadable hend h)

theorem getP32_of_holds {m : Memory} {i : Word} {bs : List Byte} (h1 : 1 ≤ bs.length)
    (h3 : bs.length ≤ 3) (hend : i.toNat + bs.length ≤ 2 ^ 64) (h : Holds m i.toNat bs) :
    getP32 m i bs.length = .ok (assembleFrom 0 bs) :=
  getP32_ok_iff.2 ⟨⟨h1, h3⟩, bs, memRead_eq_ok_of_holds hend h, rfl⟩

theorem getP32_of_not_allReadable {m : Memory} {i : Word} {n : Nat} (h1 : 1 ≤ n) (h3 : n ≤ 3)
    (hend : i.toNat + n ≤ 2 ^ 64) (h : ¬ AllReadable m i.toNat n) :
    getP32 m i n = .error (.mem i) :=
  getP32_error_iff.2 (.inr ⟨⟨h1, h3⟩, memRead_error_of_not_allReadable hend h⟩)

/-- Settles O19: `assemble_eq_ofNat` gives the value, `memRead` the refusal. -/
theorem wordReadsAreLittleEndian : Obligations.WordReadsAreLittleEndian := by
  unfold Obligations.WordReadsAreLittleEndian
  intro m index
  refine ⟨?_, get32_of_not_allReadable, ?_, fun n => getP32_of_not_allReadable, ?_⟩
  · intro bs hend hl h
    rw [get32_of_holds hend hl h, assemble_eq_ofNat hl.le]
    exact ⟨rfl, leValue_lt_two_pow hl.le⟩
  · intro bs h1 h3 hend h
    rw [getP32_of_holds h1 h3 hend h, assemble_eq_ofNat (by omega)]
    exact ⟨rfl, leValue_lt_two_pow le_rfl⟩
  · intro n hn
    exact getP32_error_iff.2 (.inl ⟨by omega, rfl⟩)

/-! ### The answers of `GET64` -/

theorem get64_of_holds {m : Memory} {i : Word} {bs : List Byte} (hend : i.toNat + 8 ≤ 2 ^ 64)
    (hl : bs.length = 8) (h : Holds m i.toNat bs) :
    get64 m i = .ok (BitVec.ofNat 64 (leValue bs)) := by
  have hnext : (i + 4#64).toNat = i.toNat + 4 := index_toNat (by omega)
  have hlow : (bs.take 4).length = 4 := by simp [hl]
  have hhigh : (bs.drop 4).length = 4 := by simp [hl]
  refine get64_ok_iff.2 ⟨_, _, get32_of_holds (by omega) hlow (holds_take h 4),
    get32_of_holds (by omega) hhigh (hnext ▸ holds_drop h 4), ?_⟩
  rw [BitVec.or_comm, shiftLeft_or_eq_ofNat (BitVec.isLt _), assemble_toNat hlow.le,
    assemble_toNat hhigh.le, leValue_eq_take_add_drop (bs := bs) (n := 4) (by omega)]
  congr 1
  ring

theorem get64_of_first_refused {m : Memory} {i : Word} (hend : i.toNat + 4 ≤ 2 ^ 64)
    (h : ¬ AllReadable m i.toNat 4) : get64 m i = .error (.mem i) :=
  get64_error_iff.2 (.inl (get32_of_not_allReadable hend h))

theorem get64_of_second_refused {m : Memory} {i : Word} (hend : i.toNat + 8 ≤ 2 ^ 64)
    (h : AllReadable m i.toNat 4) (h' : ¬ AllReadable m (i.toNat + 4) 4) :
    get64 m i = .error (.mem (i + 4#64)) := by
  have hnext : (i + 4#64).toNat = i.toNat + 4 := index_toNat (by omega)
  obtain ⟨w, hw⟩ := get32_of_allReadable (by omega) h
  exact get64_error_iff.2 (.inr ⟨w, hw, get32_of_not_allReadable (by omega) (hnext ▸ h')⟩)

/-- Settles O20: the two halves are the first and the last four of the eight bytes. -/
theorem get64IsLittleEndian : Obligations.Get64IsLittleEndian := by
  unfold Obligations.Get64IsLittleEndian
  intro m index hend
  exact ⟨fun bs => get64_of_holds hend, get64_of_first_refused (by omega),
    get64_of_second_refused hend⟩

/-! ### The answers of `GETP64` -/

theorem getP64_of_holds_of_le_four {m : Memory} {i : Word} {bs : List Byte} (h1 : 1 ≤ bs.length)
    (h4 : bs.length ≤ 4) (hend : i.toNat + bs.length ≤ 2 ^ 64) (h : Holds m i.toNat bs) :
    getP64 m i bs.length = .ok (BitVec.ofNat 64 (leValue bs)) := by
  rw [← assemble_setWidth_eq_ofNat h4]
  obtain hlt | heq := Nat.lt_or_eq_of_le h4
  · rw [getP64_of_lt_four h1 hlt, getP32_of_holds h1 (by omega) hend h, ok_bind]
    rfl
  · rw [heq, getP64_four, get32_of_holds (heq ▸ hend) heq h, ok_bind]
    rfl

theorem getP64_of_holds_of_gt_four {m : Memory} {i : Word} {bs : List Byte} (h4 : 4 < bs.length)
    (h7 : bs.length ≤ 7) (hend : i.toNat + bs.length ≤ 2 ^ 64) (h : Holds m i.toNat bs) :
    getP64 m i bs.length = .ok (BitVec.ofNat 64
      (leValue (bs.take 4) * 256 ^ (bs.length - 4) + leValue (bs.drop 4))) := by
  have hnext : (i + 4#64).toNat = i.toNat + 4 := index_toNat (by omega)
  have hlow : (bs.take 4).length = 4 := List.length_take_of_le (by omega)
  have hrest : (bs.drop 4).length = bs.length - 4 := List.length_drop
  have hget : getP32 m (i + 4#64) (bs.length - 4) = .ok (assembleFrom 0 (bs.drop 4)) :=
    hrest ▸ getP32_of_holds (by omega) (by omega) (by omega) (hnext ▸ holds_drop h 4)
  have hvalue : (assembleFrom 0 (bs.drop 4)).toNat = leValue (bs.drop 4) :=
    assemble_toNat (by omega)
  have hfits : leValue (bs.drop 4) < 2 ^ ((bs.length - 4) * 8) :=
    Nat.mul_comm .. ▸ leValue_lt_two_pow hrest.le
  rw [getP64_of_gt_four h4 h7, get32_of_holds (by omega) hlow (holds_take h 4), ok_bind, hget,
    ok_bind, shiftLeft_or_eq_ofNat (hvalue.symm ▸ hfits), hvalue, assemble_toNat hlow.le,
    Nat.mul_comm (bs.length - 4), Nat.pow_mul]
  rfl

/-- `GETP64` answers the tail as the hardware packs it (R58). -/
theorem getP64_of_holds {m : Memory} {i : Word} {bs : List Byte} (h1 : 1 ≤ bs.length)
    (h7 : bs.length ≤ 7) (hend : i.toNat + bs.length ≤ 2 ^ 64) (h : Holds m i.toNat bs) :
    getP64 m i bs.length = .ok (tailValue bs) := by
  unfold tailValue
  split
  case isTrue h4 => exact getP64_of_holds_of_le_four h1 h4 hend h
  case isFalse h4 => exact getP64_of_holds_of_gt_four (by omega) h7 hend h

/-- The rows 5, 6 and 7 of the table of R58, most significant byte first. -/
theorem tailValue_five (b0 b1 b2 b3 b4 : Byte) :
    tailValue [b0, b1, b2, b3, b4] = 0#24 ++ b3 ++ b2 ++ b1 ++ b0 ++ b4 := by
  apply BitVec.eq_of_toNat_eq
  rw [tailValue, if_neg (by simp)]
  simp only [leValue, List.take, List.drop, List.length, toNat_append_eq_add, BitVec.toNat_ofNat]
  omega

theorem tailValue_six (b0 b1 b2 b3 b4 b5 : Byte) :
    tailValue [b0, b1, b2, b3, b4, b5] = 0#16 ++ b3 ++ b2 ++ b1 ++ b0 ++ b5 ++ b4 := by
  apply BitVec.eq_of_toNat_eq
  rw [tailValue, if_neg (by simp)]
  simp only [leValue, List.take, List.drop, List.length, toNat_append_eq_add, BitVec.toNat_ofNat]
  omega

theorem tailValue_seven (b0 b1 b2 b3 b4 b5 b6 : Byte) :
    tailValue [b0, b1, b2, b3, b4, b5, b6] = 0#8 ++ b3 ++ b2 ++ b1 ++ b0 ++ b6 ++ b5 ++ b4 := by
  apply BitVec.eq_of_toNat_eq
  rw [tailValue, if_neg (by simp)]
  simp only [leValue, List.take, List.drop, List.length, toNat_append_eq_add, BitVec.toNat_ofNat]
  omega

theorem getP64_of_first_refused {m : Memory} {i : Word} {n : Nat} (h1 : 1 ≤ n) (h7 : n ≤ 7)
    (hend : i.toNat + n ≤ 2 ^ 64) (h : ¬ AllReadable m i.toNat (min n 4)) :
    getP64 m i n = .error (.mem i) := by
  obtain hlt | rfl | hgt := Nat.lt_trichotomy n 4
  · rw [Nat.min_eq_left hlt.le] at h
    rw [getP64_of_lt_four h1 hlt, getP32_of_not_allReadable h1 (by omega) hend h, error_bind]
  · rw [getP64_four, get32_of_not_allReadable hend h, error_bind]
  · rw [Nat.min_eq_right hgt.le] at h
    rw [getP64_of_gt_four hgt h7, get32_of_not_allReadable (by omega) h, error_bind]

theorem getP64_of_second_refused {m : Memory} {i : Word} {n : Nat} (h5 : 5 ≤ n) (h7 : n ≤ 7)
    (hend : i.toNat + n ≤ 2 ^ 64) (h : AllReadable m i.toNat 4)
    (h' : ¬ AllReadable m (i.toNat + 4) (n - 4)) :
    getP64 m i n = .error (.mem (i + 4#64)) := by
  have hnext : (i + 4#64).toNat = i.toNat + 4 := index_toNat (by omega)
  obtain ⟨w, hw⟩ := get32_of_allReadable (by omega) h
  rw [getP64_of_gt_four h5 h7, hw, ok_bind,
    getP32_of_not_allReadable (by omega) (by omega) (by omega) (hnext ▸ h'), error_bind]

/-- Settles O21: the value is `tailValue` of the bytes, its byte table `tailValue_five` to
`tailValue_seven`. -/
theorem getP64PacksTheTail : Obligations.GetP64PacksTheTail := by
  unfold Obligations.GetP64PacksTheTail
  intro m index
  refine ⟨?_, ?_, ?_, ?_, ?_, fun n => getP64_of_first_refused, fun n => getP64_of_second_refused⟩
  · intro bs h1 h4 hend h
    exact ⟨getP64_of_holds_of_le_four h1 h4 hend h, leValue_lt_two_pow h4⟩
  · intro b0 b1 b2 b3 b4 hend h
    rw [← tailValue_five]
    exact getP64_of_holds (bs := [b0, b1, b2, b3, b4]) (by simp) (by simp) hend h
  · intro b0 b1 b2 b3 b4 b5 hend h
    rw [← tailValue_six]
    exact getP64_of_holds (bs := [b0, b1, b2, b3, b4, b5]) (by simp) (by simp) hend h
  · intro b0 b1 b2 b3 b4 b5 b6 hend h
    rw [← tailValue_seven]
    exact getP64_of_holds (bs := [b0, b1, b2, b3, b4, b5, b6]) (by simp) (by simp) hend h
  · intro n hn
    exact getP64_of_not_range (by omega)

end Sys2Proof.Machine
end

section
/-! The multiply-fold unit (41_fold R64 to R72): the product over the integers, and what the folds
write. -/

namespace Sys2Proof.Machine

/-! ### Halves and partial products -/

theorem lo32_toNat (v : Word) : (lo32 v).toNat = v.toNat % 2 ^ 32 := by
  rw [lo32, BitVec.toNat_and]
  exact Nat.and_two_pow_sub_one_eq_mod v.toNat 32

theorem hi32_toNat (v : Word) : (hi32 v).toNat = v.toNat / 2 ^ 32 := by
  rw [hi32, BitVec.toNat_ushiftRight, Nat.shiftRight_eq_div_pow]

theorem lo32_toNat_lt (v : Word) : (lo32 v).toNat < 2 ^ 32 := by
  rw [lo32_toNat]
  exact Nat.mod_lt _ (by decide)

theorem hi32_toNat_lt (v : Word) : (hi32 v).toNat < 2 ^ 32 := by
  have := v.isLt
  rw [hi32_toNat]
  omega

/-- The bound of R70 on each of the four partial products. -/
theorem mul_le_of_lt_two_pow_32 {x y : Nat} (hx : x < 2 ^ 32) (hy : y < 2 ^ 32) :
    x * y ≤ 2 ^ 64 - 2 ^ 33 + 1 :=
  calc x * y ≤ (2 ^ 32 - 1) * (2 ^ 32 - 1) := Nat.mul_le_mul (by omega) (by omega)
    _ = 2 ^ 64 - 2 ^ 33 + 1 := by decide

theorem toNat_mul_of_lt_two_pow_32 {x y : Word} (hx : x.toNat < 2 ^ 32) (hy : y.toNat < 2 ^ 32) :
    (x * y).toNat = x.toNat * y.toNat := by
  have := mul_le_of_lt_two_pow_32 hx hy
  rw [BitVec.toNat_mul, Nat.mod_eq_of_lt (by omega)]

/-! ### The product, evaluated in unbounded integers (R70) -/

theorem carryLane_toNat (a b : Word) :
    (carryLane a b).toNat =
      (lo32 a).toNat * (lo32 b).toNat / 2 ^ 32 + (hi32 a).toNat * (lo32 b).toNat % 2 ^ 32 +
        (lo32 a).toNat * (hi32 b).toNat % 2 ^ 32 := by
  have hr1 := mul_le_of_lt_two_pow_32 (lo32_toNat_lt a) (lo32_toNat_lt b)
  rw [carryLane, BitVec.toNat_add, BitVec.toNat_add, hi32_toNat, lo32_toNat (hi32 a * _),
    lo32_toNat (lo32 a * hi32 b), toNat_mul_of_lt_two_pow_32 (lo32_toNat_lt a) (lo32_toNat_lt b),
    toNat_mul_of_lt_two_pow_32 (hi32_toNat_lt a) (lo32_toNat_lt b),
    toNat_mul_of_lt_two_pow_32 (lo32_toNat_lt a) (hi32_toNat_lt b)]
  omega

theorem carryLane_toNat_le (a b : Word) : (carryLane a b).toNat ≤ 3 * (2 ^ 32 - 1) := by
  have hr1 := mul_le_of_lt_two_pow_32 (lo32_toNat_lt a) (lo32_toNat_lt b)
  rw [carryLane_toNat]
  omega

theorem productLo_toNat (a b : Word) :
    (productLo a b).toNat =
      (lo32 a).toNat * (lo32 b).toNat % 2 ^ 32 + (carryLane a b).toNat % 2 ^ 32 * 2 ^ 32 := by
  have hlow : (lo32 (lo32 a * lo32 b)).toNat < 2 ^ 32 := lo32_toNat_lt _
  have hhigh : (lo32 (carryLane a b) <<< 32).toNat = (lo32 (carryLane a b)).toNat <<< 32 := by
    have := lo32_toNat_lt (carryLane a b)
    rw [BitVec.toNat_shiftLeft, Nat.shiftLeft_eq]
    omega
  rw [productLo, BitVec.toNat_or, hhigh, Nat.or_comm, ← Nat.shiftLeft_add_eq_or_of_lt hlow,
    Nat.shiftLeft_eq, lo32_toNat (carryLane a b), lo32_toNat (lo32 a * _),
    toNat_mul_of_lt_two_pow_32 (lo32_toNat_lt a) (lo32_toNat_lt b), Nat.add_comm]

theorem productHi_toNat (a b : Word) :
    (productHi a b).toNat =
      (hi32 a).toNat * (hi32 b).toNat + (carryLane a b).toNat / 2 ^ 32 := by
  have hr4 := mul_le_of_lt_two_pow_32 (hi32_toNat_lt a) (hi32_toNat_lt b)
  have hrM := carryLane_toNat_le a b
  rw [productHi, BitVec.toNat_add, toNat_mul_of_lt_two_pow_32 (hi32_toNat_lt a) (hi32_toNat_lt b),
    hi32_toNat (carryLane a b)]
  omega

/-- Settles O25: the product in unbounded integers is `carryLane_toNat`, `productLo_toNat` and
`productHi_toNat`. -/
theorem productNeverWraps : Obligations.ProductNeverWraps := by
  unfold Obligations.ProductNeverWraps
  intro a b aL aH bL bH r1 r2 r3 rM haL haH hbL hbH hr1 hr2 hr3 hrM
  rw [← lo32_toNat] at haL hbL
  rw [← hi32_toNat] at haH hbH
  have hlane : rM = (carryLane a b).toNat := by
    rw [hrM, hr1, hr2, hr3, haL, haH, hbL, hbH, carryLane_toNat]
  have hle := carryLane_toNat_le a b
  have hr4 : aH * bH ≤ 2 ^ 64 - 2 ^ 33 + 1 :=
    haH ▸ hbH ▸ mul_le_of_lt_two_pow_32 (hi32_toNat_lt a) (hi32_toNat_lt b)
  refine ⟨?_, ?_, ?_, hr4, by omega, by omega, ?_, ?_, by omega⟩
  · exact hr1 ▸ haL ▸ hbL ▸ mul_le_of_lt_two_pow_32 (lo32_toNat_lt a) (lo32_toNat_lt b)
  · exact hr2 ▸ haH ▸ hbL ▸ mul_le_of_lt_two_pow_32 (hi32_toNat_lt a) (lo32_toNat_lt b)
  · exact hr3 ▸ haL ▸ hbH ▸ mul_le_of_lt_two_pow_32 (lo32_toNat_lt a) (hi32_toNat_lt b)
  · rw [productLo_toNat, hlane, hr1, haL, hbL]
  · rw [productHi_toNat, hlane, haH, hbH]

/-! ### The product against the integer product (R65, R66) -/

theorem toNat_eq_hi32_add_lo32 (v : Word) :
    v.toNat = (hi32 v).toNat * 2 ^ 32 + (lo32 v).toNat := by
  rw [hi32_toNat, lo32_toNat, Nat.div_add_mod']

/-- The schoolbook product: the formula of R64 keeps all of it but the high halves of the two cross
products. -/
theorem toNat_mul_toNat_eq_product (a b : Word) :
    a.toNat * b.toNat =
      ((productHi a b).toNat + (hi32 a).toNat * (lo32 b).toNat / 2 ^ 32 +
        (lo32 a).toNat * (hi32 b).toNat / 2 ^ 32) * 2 ^ 64 + (productLo a b).toNat := by
  have hschool : a.toNat * b.toNat =
      (hi32 a).toNat * (hi32 b).toNat * 2 ^ 64 +
        ((hi32 a).toNat * (lo32 b).toNat + (lo32 a).toNat * (hi32 b).toNat) * 2 ^ 32 +
        (lo32 a).toNat * (lo32 b).toNat := by
    rw [toNat_eq_hi32_add_lo32 a, toNat_eq_hi32_add_lo32 b]
    ring
  rw [hschool, productHi_toNat, productLo_toNat, carryLane_toNat]
  omega

/-- Settles O23: all else in `toNat_mul_toNat_eq_product` is a multiple of 2^64. -/
theorem productLowWordIsExact : Obligations.ProductLowWordIsExact := by
  unfold Obligations.ProductLowWordIsExact
  intro a b
  apply BitVec.eq_of_toNat_eq
  rw [BitVec.toNat_mul, toNat_mul_toNat_eq_product, Nat.mul_add_mod_self_right,
    Nat.mod_eq_of_lt (productLo a b).isLt]

theorem highWord_eq_productHi_add (a b : Word) :
    a.toNat * b.toNat / 2 ^ 64 = (productHi a b).toNat +
      (hi32 a).toNat * (lo32 b).toNat / 2 ^ 32 + (lo32 a).toNat * (hi32 b).toNat / 2 ^ 32 := by
  have hlo := (productLo a b).isLt
  rw [toNat_mul_toNat_eq_product]
  omega

theorem productHi_eq_highWord_iff (a b : Word) :
    (productHi a b).toNat = a.toNat * b.toNat / 2 ^ 64 ↔
      (hi32 a).toNat * (lo32 b).toNat < 2 ^ 32 ∧ (lo32 a).toNat * (hi32 b).toNat < 2 ^ 32 := by
  rw [highWord_eq_productHi_add]
  omega

/-- With a high half of `b` of at least 2^31, a low half of `a` of 2 or more makes the second cross
product reach 2^32; this is the case of `M` and of `N` (R66). -/
theorem productHi_ne_highWord {a b : Word} (ha : 2 ≤ (lo32 a).toNat)
    (hb : 2 ^ 31 ≤ (hi32 b).toNat) : (productHi a b).toNat ≠ a.toNat * b.toNat / 2 ^ 64 := by
  have hcross : 2 * 2 ^ 31 ≤ (lo32 a).toNat * (hi32 b).toNat := Nat.mul_le_mul ha hb
  rw [Ne, productHi_eq_highWord_iff]
  omega

/-- Settles O24: the two missing terms are those of `toNat_mul_toNat_eq_product`. -/
theorem productHighWordLacksTwoTerms : Obligations.ProductHighWordLacksTwoTerms := by
  unfold Obligations.ProductHighWordLacksTwoTerms
  refine ⟨fun a b => ?_, fun a b => ?_, fun a ha => ?_, by decide⟩
  · simpa only [lo32_toNat, hi32_toNat] using highWord_eq_productHi_add a b
  · simpa only [lo32_toNat, hi32_toNat] using productHi_eq_highWord_iff a b
  · rw [← lo32_toNat] at ha
    exact ⟨productHi_ne_highWord (b := foldM) ha (by decide),
      productHi_ne_highWord (b := foldN) ha (by decide)⟩

/-! ### Corners and symmetry (R72, R64) -/

theorem productHi_eq_zero_of_lt {a b : Word} (h : a.toNat * b.toNat < 2 ^ 64) :
    productHi a b = 0#64 := by
  have hword := highWord_eq_productHi_add a b
  rw [Nat.div_eq_of_lt h] at hword
  apply BitVec.eq_of_toNat_eq
  rw [BitVec.toNat_zero]
  omega

@[simp] theorem productLo_zero (b : Word) : productLo 0#64 b = 0#64 := by
  rw [productLowWordIsExact, BitVec.zero_mul]

@[simp] theorem productHi_zero (b : Word) : productHi 0#64 b = 0#64 :=
  productHi_eq_zero_of_lt (by simp)

@[simp] theorem productLo_one (b : Word) : productLo 1#64 b = b := by
  rw [productLowWordIsExact, BitVec.one_mul]

@[simp] theorem productHi_one (b : Word) : productHi 1#64 b = 0#64 :=
  productHi_eq_zero_of_lt (by simpa using b.isLt)

theorem carryLane_comm (a b : Word) : carryLane a b = carryLane b a := by
  rw [carryLane, carryLane, BitVec.mul_comm (lo32 a) (lo32 b), BitVec.mul_comm (hi32 a) (lo32 b),
    BitVec.mul_comm (lo32 a) (hi32 b), add_right_comm]

theorem productLo_comm (a b : Word) : productLo a b = productLo b a := by
  rw [productLowWordIsExact, productLowWordIsExact, BitVec.mul_comm]

theorem productHi_comm (a b : Word) : productHi a b = productHi b a := by
  rw [productHi, productHi, carryLane_comm, BitVec.mul_comm]

/-- Settles O26: 0 and 1 by R65 and `productHi_eq_zero_of_lt`, the large corners by evaluation. -/
theorem productCorners : Obligations.ProductCorners := by
  unfold Obligations.ProductCorners
  exact ⟨fun b => ⟨productLo_zero b, productHi_zero b⟩,
    fun b => ⟨productLo_one b, productHi_one b⟩,
    by decide, by decide, by decide, fun a b => ⟨productLo_comm a b, productHi_comm a b⟩⟩

/-! ### The folds (R67 to R69) -/

theorem cwfold_h_k (x y : Word) (s : State) :
    cwfold x y .h .k s = { s with h := s.h ^^^ productLo x y, k := s.k ^^^ productHi x y } := rfl

theorem cwfold_k_h (x y : Word) (s : State) :
    cwfold x y .k .h s = { s with k := s.k ^^^ productLo x y, h := s.h ^^^ productHi x y } := rfl

theorem setAcc_acc (i : Acc) (s : State) : s.setAcc i (s.acc i) = s := by
  cases i <;> rfl

/-- An operand of 0 leaves both accumulators unchanged (R67). -/
theorem cwfold_zero (y : Word) (loAcc hiAcc : Acc) (s : State) :
    cwfold 0#64 y loAcc hiAcc s = s := by
  simp only [cwfold, productLo_zero, productHi_zero, BitVec.xor_zero, setAcc_acc]

/-- Settles O27: `cwfold` in both role assignments, the mixes by their constants. -/
theorem foldXorsIntoAccumulators : Obligations.FoldXorsIntoAccumulators := by
  unfold Obligations.FoldXorsIntoAccumulators
  intro s x y
  exact ⟨cwfold_h_k x y s, cwfold_k_h x y s, rfl, rfl, cwfold_zero y .h .k s,
    cwfold_zero y .k .h s⟩

end Sys2Proof.Machine
end

section
/-! The operations that compute (42_controller R75 to R82, R85): what each answers as a state, in its
result and in each of its faults. -/

namespace Sys2Proof.Machine

open Sys2Proof.Safety

/-! ### The arm of each operation -/

theorem exec_init (s : State) : exec .init s = complete s (.ok (initOp s)) := rfl

theorem exec_blkb (s : State) : exec .blkb s = complete s (blkbOp s) := rfl

theorem exec_blka (s : State) : exec .blka s = complete s (blkaOp s) := rfl

theorem exec_midb (s : State) : exec .midb s = complete s (midbOp s) := rfl

theorem exec_taila (s : State) : exec .taila s = complete s (tailaOp s) := rfl

theorem exec_final (s : State) : exec .final s = complete s (.ok (finalOp s)) := rfl

/-! ### How an operation ends (R73, R104) -/

theorem complete_of_ok {s t : State} {r : Except Trap State} (h : r = .ok t) :
    complete s r = .next t :=
  complete_next_iff.2 (.inl h)

theorem complete_of_contract {s : State} {r : Except Trap State} (h : r = .error .contract) :
    complete s r = .next { s with phase := 8#4, cause := 3#2 } :=
  complete_next_iff.2 (.inr ⟨_, h, rfl⟩)

theorem complete_of_mem {s : State} {r : Except Trap State} {addr : Word}
    (h : r = .error (.mem addr)) :
    complete s r = .next { s with phase := 8#4, cause := 1#2, faddr := addr } :=
  complete_next_iff.2 (.inr ⟨_, h, rfl⟩)

/-! ### The operands at the cursor (30_encoding R47) -/

theorem operandMem8_of_holds {s : State} {bs : List Byte} (hend : s.pos.toNat + 8 ≤ 2 ^ 64)
    (hl : bs.length = 8) (h : Holds s.buffer s.pos.toNat bs) :
    operandMem8 s = .ok (BitVec.ofNat 64 (leValue bs)) :=
  get64_of_holds hend hl h

theorem operandMem8_of_first_refused {s : State} (hend : s.pos.toNat + 8 ≤ 2 ^ 64)
    (h : ¬ AllReadable s.buffer s.pos.toNat 4) : operandMem8 s = .error (.mem s.pos) :=
  get64_of_first_refused (by omega) h

theorem operandMem8_of_second_refused {s : State} (hend : s.pos.toNat + 8 ≤ 2 ^ 64)
    (h : AllReadable s.buffer s.pos.toNat 4) (h' : ¬ AllReadable s.buffer (s.pos.toNat + 4) 4) :
    operandMem8 s = .error (.mem (s.pos + 4#64)) :=
  get64_of_second_refused hend h h'

theorem operandMemP_of_holds {s : State} {bs : List Byte} (h1 : 1 ≤ s.len.toNat)
    (h7 : s.len.toNat ≤ 7) (hend : s.pos.toNat + s.len.toNat ≤ 2 ^ 64)
    (hl : bs.length = s.len.toNat) (h : Holds s.buffer s.pos.toNat bs) :
    operandMemP s = .ok (tailValue bs) := by
  rw [← hl] at h1 h7 hend
  rw [operandMemP, ← hl]
  exact getP64_of_holds h1 h7 hend h

/-! ### The block operations: BLKB, BLKA and MIDB (R78 to R80) -/

/-- `r` faults as a block operation on `s` does: with `CONTRACT` where the check `c` of `LEN` fails,
and otherwise with what the read of the 8 bytes at `POS` raises (R105). -/
def FaultsAsBlock (s : State) (c : Prop) (r : Except Trap State) : Prop :=
  ∀ f, r = .error f ↔ (¬ c ∧ f = .contract) ∨ (c ∧ operandMem8 s = .error f)

theorem blkbOp_faultsAsBlock (s : State) : FaultsAsBlock s (16#64 ≤ s.len) (blkbOp s) :=
  fun _ => blkbOp_error_iff

theorem blkaOp_faultsAsBlock (s : State) : FaultsAsBlock s (16#64 ≤ s.len) (blkaOp s) :=
  fun _ => blkaOp_error_iff

theorem midbOp_faultsAsBlock (s : State) :
    FaultsAsBlock s (8#64 ≤ s.len ∧ s.len ≤ 15#64) (midbOp s) :=
  fun _ => midbOp_error_iff

theorem FaultsAsBlock.contract {s : State} {c : Prop} {r : Except Trap State}
    (hr : FaultsAsBlock s c r) (hc : ¬ c) :
    complete s r = .next { s with phase := 8#4, cause := 3#2 } :=
  complete_of_contract ((hr _).2 (.inl ⟨hc, rfl⟩))

theorem FaultsAsBlock.first_refused {s : State} {c : Prop} {r : Except Trap State}
    (hr : FaultsAsBlock s c r) (hc : c) (hend : s.pos.toNat + 8 ≤ 2 ^ 64)
    (h : ¬ AllReadable s.buffer s.pos.toNat 4) :
    complete s r = .next { s with phase := 8#4, cause := 1#2, faddr := s.pos } :=
  complete_of_mem ((hr _).2 (.inr ⟨hc, operandMem8_of_first_refused hend h⟩))

theorem FaultsAsBlock.second_refused {s : State} {c : Prop} {r : Except Trap State}
    (hr : FaultsAsBlock s c r) (hc : c) (hend : s.pos.toNat + 8 ≤ 2 ^ 64)
    (h : AllReadable s.buffer s.pos.toNat 4) (h' : ¬ AllReadable s.buffer (s.pos.toNat + 4) 4) :
    complete s r = .next { s with phase := 8#4, cause := 1#2, faddr := s.pos + 4#64 } :=
  complete_of_mem ((hr _).2 (.inr ⟨hc, operandMem8_of_second_refused hend h h'⟩))

/-- Settles O10: the result by the inversion of `blkbOp`, the faults as those of a block. -/
theorem blkbFoldsFirstHalf : Obligations.BlkbFoldsFirstHalf := by
  unfold Obligations.BlkbFoldsFirstHalf
  intro s
  simp only [exec_blkb]
  refine ⟨?_, ?_, ?_, ?_⟩
  · intro bs h16 hend hl hb
    exact complete_of_ok (blkbOp_ok_iff.2 ⟨h16, _, operandMem8_of_holds hend hl hb, rfl⟩)
  · intro hlen
    exact (blkbOp_faultsAsBlock s).contract (not_le.2 hlen)
  · intro h16 hend h
    exact (blkbOp_faultsAsBlock s).first_refused h16 hend h
  · intro h16 hend h h'
    exact (blkbOp_faultsAsBlock s).second_refused h16 hend h h'

/-- Settles O11: the result by the inversion of `blkaOp`, the faults as those of a block. -/
theorem blkaFoldsSecondHalf : Obligations.BlkaFoldsSecondHalf := by
  unfold Obligations.BlkaFoldsSecondHalf
  intro s
  simp only [exec_blka]
  refine ⟨?_, ?_, ?_, ?_⟩
  · intro bs h16 hend hl hb
    exact complete_of_ok (blkaOp_ok_iff.2 ⟨h16, _, operandMem8_of_holds hend hl hb, rfl⟩)
  · intro hlen
    exact (blkaOp_faultsAsBlock s).contract (not_le.2 hlen)
  · intro h16 hend h
    exact (blkaOp_faultsAsBlock s).first_refused h16 hend h
  · intro h16 hend h h'
    exact (blkaOp_faultsAsBlock s).second_refused h16 hend h h'

/-- Settles O12: the result by the inversion of `midbOp`, the faults as those of a block. -/
theorem midbFoldsMidBlock : Obligations.MidbFoldsMidBlock := by
  unfold Obligations.MidbFoldsMidBlock
  intro s
  simp only [exec_midb]
  refine ⟨?_, ?_, ?_, ?_⟩
  · intro bs h8 h15 hend hl hb
    exact complete_of_ok (midbOp_ok_iff.2 ⟨⟨h8, h15⟩, _, operandMem8_of_holds hend hl hb, rfl⟩)
  · intro hlen
    exact (midbOp_faultsAsBlock s).contract (by bv_omega)
  · intro h8 h15 hend h
    exact (midbOp_faultsAsBlock s).first_refused ⟨h8, h15⟩ hend h
  · intro h8 h15 hend h h'
    exact (midbOp_faultsAsBlock s).second_refused ⟨h8, h15⟩ hend h h'

/-! ### The tail: TAILA (R81) -/

/-- Settles O13: TAILA raises what `GETP64` raises, the range of `LEN` among it. -/
theorem tailaFoldsTail : Obligations.TailaFoldsTail := by
  unfold Obligations.TailaFoldsTail
  intro s
  simp only [exec_taila]
  refine ⟨?_, ?_, ?_, ?_⟩
  · intro bs h1 h7 hend hl hb
    exact complete_of_ok (tailaOp_ok_iff.2 ⟨_, operandMemP_of_holds h1 h7 hend hl hb, rfl⟩)
  · intro hlen
    exact complete_of_contract (tailaOp_error_iff.2 (getP64_of_not_range (by omega)))
  · intro h1 h7 hend h
    exact complete_of_mem (tailaOp_error_iff.2 (getP64_of_first_refused h1 h7 hend h))
  · intro h5 h7 hend h h'
    exact complete_of_mem (tailaOp_error_iff.2 (getP64_of_second_refused h5 h7 hend h h'))

/-! ### The reserved codes (R85) -/

theorem illegalPhase_eq (s : State) :
    illegalPhase s = .next { s with phase := 8#4, cause := 2#2 } :=
  illegalPhase_next_iff.2 rfl

theorem decode_reserved_of_nine_le (op : OpCode) (h : 9#4 ≤ op) :
    decode op = .reserved9 ∨ decode op = .reserved10to11 op ∨ decode op = .reserved12to15 op := by
  revert op
  decide

/-- Settles O8: the codes of 9 or more are those of the reserved rows, and each arm of these is
`illegalPhase`. -/
theorem reservedCodesRaiseIllegalPhase : Obligations.ReservedCodesRaiseIllegalPhase := by
  unfold Obligations.ReservedCodesRaiseIllegalPhase
  intro s
  refine ⟨illegalPhase_eq s, fun _ => illegalPhase_eq s, fun _ => illegalPhase_eq s, ?_⟩
  intro op h
  obtain hd | hd | hd := decode_reserved_of_nine_le op h <;> rw [hd] <;> exact illegalPhase_eq s

/-! ### The operations without a check: INIT and FINAL (R77, R82) -/

/-- Settles O9: INIT cannot fault, so it ends with the writes of `initOp`. -/
theorem initLoadsRegisters : Obligations.InitLoadsRegisters := by
  unfold Obligations.InitLoadsRegisters
  intro s
  rw [exec_init, complete_of_ok rfl, initOp, foldN]

/-- Settles O14: FINAL cannot fault; the operand is read before `cwmixb`, the last XOR after it. -/
theorem finalMixesAccumulators : Obligations.FinalMixesAccumulators := by
  unfold Obligations.FinalMixesAccumulators
  intro s x h1 k1 hx hh1 hk1
  have hfold : cwmixb (operandFin s) s = { s with h := h1, k := k1 } := by
    rw [hh1, hk1, hx]
    exact cwfold_h_k (operandFin s) foldN s
  rw [exec_final, complete_of_ok rfl, finalOp, hfold]

/-! ### The next phase (R75) -/

/-- Settles O15: the four ranges of `dispatch_cases` exclude each other. -/
theorem dispatchByLength : Obligations.DispatchByLength := by
  unfold Obligations.DispatchByLength
  intro l
  obtain ⟨h, hd⟩ | ⟨h, h', hd⟩ | ⟨h, h', hd⟩ | ⟨h, hd⟩ := dispatch_cases l
  · exact ⟨fun _ => hd, by omega, by omega, by omega⟩
  · exact ⟨by omega, fun _ _ => hd, by omega, by omega⟩
  · exact ⟨by omega, by omega, fun _ _ => hd, by omega⟩
  · exact ⟨by omega, by omega, by omega, fun _ => hd⟩

end Sys2Proof.Machine
end

section
/-! The host's writes and the numbers that are no register (43_host R91, R92, R99). -/

namespace Sys2Proof.Machine

/-! ### The phase classes as numbers (10_state R19) -/

theorem busy_iff (s : State) : busy s = true ↔ 1 ≤ s.phase.toNat ∧ s.phase.toNat ≤ 6 := by
  simp [busy, BitVec.le_def]

theorem not_busy_iff (s : State) : ¬ busy s = true ↔ s.phase.toNat = 0 ∨ 6 < s.phase.toNat := by
  rw [busy_iff]
  omega

/-! ### Writes of the arguments (R91) -/

theorem writeSeed_of_busy {s : State} (v : Word) (h : busy s = true) : writeSeed v s = s :=
  if_pos h

theorem writeSeed_of_not_busy {s : State} (v : Word) (h : ¬ busy s = true) :
    writeSeed v s = { s with seed := v } :=
  if_neg h

theorem writeLength_of_busy {s : State} (v : Word) (h : busy s = true) : writeLength v s = s :=
  if_pos h

theorem writeLength_of_not_busy {s : State} (v : Word) (h : ¬ busy s = true) :
    writeLength v s = { s with length := v } :=
  if_neg h

/-! ### Writes of `CTRL` (R92) -/

/-- Bit 0 of a word is its parity. -/
theorem getLsbD_zero_iff_odd (v : Word) : v.getLsbD 0 = true ↔ v.toNat % 2 = 1 := by
  rw [BitVec.getLsbD, Nat.testBit_zero, decide_eq_true_eq]

theorem writeCtrl_of_start {v : Word} {s : State} (hv : v.toNat % 2 = 1)
    (hp : s.phase = 0#4 ∨ s.phase = 7#4) : writeCtrl v s = { s with phase := 1#4 } := by
  have hbit := (getLsbD_zero_iff_odd v).2 hv
  refine if_pos ?_
  simpa only [hbit, Bool.true_and, Bool.or_eq_true, beq_iff_eq] using hp

theorem writeCtrl_of_ignored {v : Word} {s : State}
    (h : v.toNat % 2 = 0 ∨ (s.phase ≠ 0#4 ∧ s.phase ≠ 7#4)) : writeCtrl v s = s := by
  obtain ⟨hbit, hp, -⟩ | hkept := writeCtrl_cases v s
  · have hodd := (getLsbD_zero_iff_odd v).1 hbit
    obtain heven | ⟨hidle, hdone⟩ := h
    · omega
    · exact absurd hp (not_or.2 ⟨hidle, hdone⟩)
  · exact hkept

/-! ### The host step by register number -/

theorem hostStep_wr_seed (v : Word) (s : State) :
    hostStep (.wr 0 v) s = .next (writeSeed v s) := rfl

theorem hostStep_wr_length (v : Word) (s : State) :
    hostStep (.wr 1 v) s = .next (writeLength v s) := rfl

theorem hostStep_wr_ctrl (v : Word) (s : State) :
    hostStep (.wr 2 v) s = .next (writeCtrl v s) := rfl

theorem hostStep_wr_of_six_le {num : Nat} (v : Word) (s : State) (h : 6 ≤ num) :
    hostStep (.wr num v) s = .refused (.noSuchHostRegister num) := by
  obtain ⟨n, rfl⟩ := Nat.exists_eq_add_of_le' h
  rfl

theorem hostStep_rd_of_six_le {num : Nat} (s : State) (h : 6 ≤ num) :
    hostStep (.rd num) s = .refused (.noSuchHostRegister num) := by
  obtain ⟨n, rfl⟩ := Nat.exists_eq_add_of_le' h
  rfl

/-- Settles O34: the two ranges of phases are BUSY and its complement. -/
theorem argumentWritesOutsideBusy : Obligations.ArgumentWritesOutsideBusy := by
  unfold Obligations.ArgumentWritesOutsideBusy
  intro s v
  rw [hostStep_wr_seed, hostStep_wr_length, ← busy_iff, ← not_busy_iff]
  refine ⟨fun hbusy => ?_, fun hfree => ?_⟩
  · rw [writeSeed_of_busy v hbusy, writeLength_of_busy v hbusy]
    exact ⟨rfl, rfl⟩
  · rw [writeSeed_of_not_busy v hfree, writeLength_of_not_busy v hfree]
    exact ⟨rfl, rfl⟩

/-- Settles O35: START is accepted by `writeCtrl_of_start`; `writeCtrl_of_ignored` is every other
write of `CTRL`. -/
theorem startFromIdleOrDone : Obligations.StartFromIdleOrDone := by
  unfold Obligations.StartFromIdleOrDone
  intro s v
  rw [hostStep_wr_ctrl]
  refine ⟨fun hv hp => ?_, fun h => ?_⟩
  · rw [writeCtrl_of_start hv hp]
  · rw [writeCtrl_of_ignored h]

/-- Settles O40: a number of 6 or more falls in the last branch of a write and of a read. -/
theorem otherRegisterNumbersAreRefused : Obligations.OtherRegisterNumbersAreRefused := by
  unfold Obligations.OtherRegisterNumbersAreRefused
  intro s num v h
  exact ⟨hostStep_wr_of_six_le v s h, hostStep_rd_of_six_le s h⟩

end Sys2Proof.Machine
end

section
/-! Fault entry (60_exceptions R103): what it writes, and that an operation reaches `FAULT` by no
other way. -/

namespace Sys2Proof.Machine

/-! ### What fault entry writes -/

/-- Fault entry by cause, as the state before it with the registers it writes. -/
theorem raiseFault_cases (f : Trap) (s : State) :
    (∃ addr, raiseFault f s = { s with phase := 8#4, cause := 1#2, faddr := addr }) ∨
      raiseFault f s = { s with phase := 8#4, cause := 2#2 } ∨
      raiseFault f s = { s with phase := 8#4, cause := 3#2 } := by
  cases f with
  | mem addr => exact .inl ⟨addr, rfl⟩
  | illegalPhase => exact .inr (.inl rfl)
  | contract => exact .inr (.inr rfl)

/-! ### The register writes of an operation leave `PHASE` outside `FAULT` -/

theorem dispatch_ne_phaseFault (l : Word) : dispatch l ≠ phaseFault := by
  obtain ⟨-, hd⟩ | ⟨-, -, hd⟩ | ⟨-, -, hd⟩ | ⟨-, hd⟩ := dispatch_cases l <;> rw [hd] <;> decide

theorem blkbOp_ok_phase {s t : State} (h : blkbOp s = .ok t) : t.phase = phaseBlka := by
  obtain ⟨-, x, -, rfl⟩ := blkbOp_ok_iff.1 h
  rfl

theorem blkaOp_ok_phase {s t : State} (h : blkaOp s = .ok t) : t.phase = dispatch t.len := by
  obtain ⟨-, y, -, rfl⟩ := blkaOp_ok_iff.1 h
  rfl

theorem midbOp_ok_phase {s t : State} (h : midbOp s = .ok t) : t.phase = dispatch t.len := by
  obtain ⟨-, x, -, rfl⟩ := midbOp_ok_iff.1 h
  rfl

theorem tailaOp_ok_phase {s t : State} (h : tailaOp s = .ok t) : t.phase = phaseFinal := by
  obtain ⟨y, -, rfl⟩ := tailaOp_ok_iff.1 h
  rfl

/-! ### The only way into `FAULT` -/

/-- Where the writes `r` of an operation leave `PHASE` outside `FAULT`, the operation is in `FAULT`
after it by fault entry alone. -/
theorem eq_raiseFault_of_exec_eq_complete {i : Instr} {s t : State} {r : Except Trap State}
    (he : exec i s = complete s r) (hr : ∀ u, r = .ok u → u.phase ≠ phaseFault)
    (h : exec i s = .next t) (ht : t.phase = phaseFault) : ∃ f, t = raiseFault f s := by
  obtain hok | ⟨f, -, hf⟩ := complete_next_iff.1 (he.symm.trans h)
  · exact absurd ht (hr t hok)
  · exact ⟨f, hf⟩

theorem phase_of_hold {p : OpCode} {s t : State} (h : hold p s = .next t) : t.phase = p := by
  rw [hold_next_iff.1 h]

theorem eq_raiseFault_of_illegalPhase {s t : State} (h : illegalPhase s = .next t) :
    ∃ f, t = raiseFault f s :=
  ⟨.illegalPhase, illegalPhase_next_iff.1 h⟩

/-- Every operation but FAULT reaches the phase `FAULT` by fault entry alone: IDLE and DONE hold
their own phase, a reserved code raises, and the writes of the others set another phase. -/
theorem eq_raiseFault_of_exec {i : Instr} {s t : State} (hi : i ≠ .fault)
    (h : exec i s = .next t) (ht : t.phase = phaseFault) : ∃ f, t = raiseFault f s := by
  cases i with
  | idle => exact absurd ((phase_of_hold h).symm.trans ht) (by decide)
  | init =>
    refine eq_raiseFault_of_exec_eq_complete (exec_init s) (fun u hu => ?_) h ht
    cases hu
    exact dispatch_ne_phaseFault s.length
  | blkb =>
    exact eq_raiseFault_of_exec_eq_complete (exec_blkb s)
      (fun _ hu => (blkbOp_ok_phase hu).trans_ne (by decide)) h ht
  | blka =>
    exact eq_raiseFault_of_exec_eq_complete (exec_blka s)
      (fun u hu => (blkaOp_ok_phase hu).trans_ne (dispatch_ne_phaseFault u.len)) h ht
  | midb =>
    exact eq_raiseFault_of_exec_eq_complete (exec_midb s)
      (fun u hu => (midbOp_ok_phase hu).trans_ne (dispatch_ne_phaseFault u.len)) h ht
  | taila =>
    exact eq_raiseFault_of_exec_eq_complete (exec_taila s)
      (fun _ hu => (tailaOp_ok_phase hu).trans_ne (by decide)) h ht
  | final =>
    refine eq_raiseFault_of_exec_eq_complete (exec_final s) (fun u hu => ?_) h ht
    cases hu
    exact (finalOp_phase s).trans_ne (by decide)
  | done => exact absurd ((phase_of_hold h).symm.trans ht) (by decide)
  | fault => exact absurd rfl hi
  | reserved9 => exact eq_raiseFault_of_illegalPhase h
  | reserved10to11 op => exact eq_raiseFault_of_illegalPhase h
  | reserved12to15 op => exact eq_raiseFault_of_illegalPhase h

/-- Settles O17: `complete` by its branches; an operation ends in `FAULT` by fault entry alone, and
fault entry writes by cause. -/
theorem faultEntryReplacesEveryWrite : Obligations.FaultEntryReplacesEveryWrite := by
  unfold Obligations.FaultEntryReplacesEveryWrite
  refine ⟨fun s t addr => ?_, fun i s t hi h ht => ?_⟩
  · exact ⟨complete_of_mem rfl, complete_next_iff.2 (.inr ⟨.illegalPhase, rfl, rfl⟩),
      complete_of_contract rfl, complete_of_ok rfl⟩
  · obtain ⟨f, rfl⟩ := eq_raiseFault_of_exec hi h ht
    exact raiseFault_cases f s

end Sys2Proof.Machine
end

section
/-! The decoder and the encoder of format `P` (30_encoding R45, R51). -/

namespace Sys2Proof

open Sys2Proof.Laws

/-! ### Codes and operations -/

theorem decode_encode {i : Instr} (h : i.wellFormed = true) : decode (encode i) = i := by
  cases i with
  | idle => exact RoundTrip.idle h
  | init => exact RoundTrip.init h
  | blkb => exact RoundTrip.blkb h
  | blka => exact RoundTrip.blka h
  | midb => exact RoundTrip.midb h
  | taila => exact RoundTrip.taila h
  | final => exact RoundTrip.final h
  | done => exact RoundTrip.done h
  | fault => exact RoundTrip.fault h
  | reserved9 => exact RoundTrip.reserved9 h
  | reserved10to11 op => exact RoundTrip.reserved10to11 op h
  | reserved12to15 op => exact RoundTrip.reserved12to15 op h

theorem wellFormed_decode (op : OpCode) : (decode op).wellFormed = true := by
  revert op
  decide

theorem encode_decode (op : OpCode) : encode (decode op) = op := by
  revert op
  decide

/-- Settles O1: the round trip per constructor, and the map's sixteen codes. -/
theorem decodeAndEncodeAgree : Obligations.DecodeAndEncodeAgree := by
  unfold Obligations.DecodeAndEncodeAgree
  exact ⟨fun _ => decode_encode, fun op => ⟨wellFormed_decode op, encode_decode op⟩⟩

theorem decode_row10to11 (op : OpCode) (h : op = 10#4 ∨ op = 11#4) :
    decode op = .reserved10to11 op := by
  obtain rfl | rfl := h <;> rfl

theorem decode_row12to15 (op : OpCode) (h : 12#4 ≤ op) : decode op = .reserved12to15 op := by
  revert op
  decide

/-- Settles O2: one row of the map each. -/
theorem opcodeMapOfFormatP : Obligations.OpcodeMapOfFormatP := by
  unfold Obligations.OpcodeMapOfFormatP
  exact ⟨rfl, rfl, rfl, rfl, rfl, rfl, rfl, rfl, rfl, rfl, decode_row10to11, decode_row12to15⟩

/-! ### Table words -/

theorem decodeTableWord_of_fits {nbits : Nat} (op : OpCode) (h : 4 ≤ nbits) :
    decodeTableWord nbits op.toNat = some (decode op) := by
  simp [decodeTableWord, decodeWord, Nat.not_lt.2 h, Nat.not_le.2 op.isLt]

theorem decodeTableWord_of_short {nbits : Nat} (w : Nat) (h : nbits < 4) :
    decodeTableWord nbits w = none := by
  simp [decodeTableWord, decodeWord, h]

theorem decodeTableWord_of_wide {nbits w : Nat} (h : 16 ≤ w) :
    decodeTableWord nbits w = none := by
  obtain hshort | hlong := Nat.lt_or_ge nbits 4
  · exact decodeTableWord_of_short w hshort
  · simp [decodeTableWord, decodeWord, Nat.not_lt.2 hlong, h]

/-- Settles O3: the three branches of the table-word decoder. -/
theorem tableWordsDecode : Obligations.TableWordsDecode := by
  unfold Obligations.TableWordsDecode
  exact ⟨fun op => decodeTableWord_of_fits op (by decide), fun _ _ => decodeTableWord_of_wide,
    fun _ w => decodeTableWord_of_short w⟩

end Sys2Proof
end

section
/-! The step, and the operations as one shape: the writes of an operation or fault entry in their
place (42_controller R73; 60_exceptions R104). -/

namespace Sys2Proof.Machine

/-! ### Whose move a step makes (00_scope R26) -/

theorem coreStep_eq (s : State) : coreStep s = exec (decode s.phase) s := rfl

/-- Settles O4: the core's turn, unscheduled and scheduled. -/
theorem stepRunsDecodedOperation : Obligations.StepRunsDecodedOperation := by
  unfold Obligations.StepRunsDecodedOperation
  rintro s i rfl
  exact ⟨step_of_nil, fun _ => step_of_cons⟩

/-- Settles O5: the scheduled move by its agent. -/
theorem stepMakesScheduledMove : Obligations.StepMakesScheduledMove := by
  unfold Obligations.StepMakesScheduledMove
  intro s rest
  exact ⟨fun _ => step_of_cons, fun _ _ => step_of_cons, fun _ => step_of_cons⟩

/-! ### The writes of an operation -/

/-- The register writes of an operation, or the fault it raises; `exec_eq_complete` ties it to
`exec`. -/
def opWrites (i : Instr) (s : State) : Except Trap State :=
  match i with
  | .idle => .ok { s with phase := phaseIdle }
  | .init => .ok (initOp s)
  | .blkb => blkbOp s
  | .blka => blkaOp s
  | .midb => midbOp s
  | .taila => tailaOp s
  | .final => .ok (finalOp s)
  | .done => .ok { s with phase := phaseDone }
  | .fault => .ok { s with phase := phaseFault }
  | .reserved9 => .error .illegalPhase
  | .reserved10to11 _ => .error .illegalPhase
  | .reserved12to15 _ => .error .illegalPhase

theorem exec_eq_complete (i : Instr) (s : State) : exec i s = complete s (opWrites i s) := by
  cases i <;> rfl

theorem exec_next_iff {i : Instr} {s t : State} : exec i s = .next t ↔
    opWrites i s = .ok t ∨ ∃ f, opWrites i s = .error f ∧ t = raiseFault f s := by
  rw [exec_eq_complete, complete_next_iff]

/-- Settles O6: every operation is a `complete`. -/
theorem coreStepIsAlwaysEnabled : Obligations.CoreStepIsAlwaysEnabled := by
  unfold Obligations.CoreStepIsAlwaysEnabled
  intro i s
  rw [exec_eq_complete]
  exact complete_is_next s _

/-- Settles O18: none of the registers INIT writes is computed from `H`, `K`, `POS` or `LEN`. -/
theorem initForgetsWorkingRegisters : Obligations.InitForgetsWorkingRegisters := by
  unfold Obligations.InitForgetsWorkingRegisters
  intro s h k pos len
  rw [exec_init, exec_init, complete_of_ok rfl, complete_of_ok rfl, initOp, initOp]

/-! ### The frame of the operations (10_state R14) -/

/-- The writes of an operation are among `H`, `K`, `POS`, `LEN` and `PHASE`, and each of the first
four is written only by the operations that the access table names for it. -/
theorem opWrites_ok_frame {i : Instr} {s t : State} (h : opWrites i s = .ok t) :
    (∃ h k pos len phase, t = { s with h := h, k := k, pos := pos, len := len, phase := phase }) ∧
    (i ∉ [Instr.init, .blkb, .blka, .midb, .taila, .final] → t.h = s.h ∧ t.k = s.k) ∧
    (i ∉ [Instr.init, .blkb, .blka, .midb] → t.pos = s.pos) ∧
    (i ∉ [Instr.init, .blka, .midb] → t.len = s.len) := by
  cases i with
  | idle => cases h; exact ⟨⟨_, _, _, _, _, rfl⟩, by simp⟩
  | init => cases h; exact ⟨⟨_, _, _, _, _, rfl⟩, by simp⟩
  | blkb => obtain ⟨-, x, -, rfl⟩ := blkbOp_ok_iff.1 h; exact ⟨⟨_, _, _, _, _, rfl⟩, by simp⟩
  | blka => obtain ⟨-, y, -, rfl⟩ := blkaOp_ok_iff.1 h; exact ⟨⟨_, _, _, _, _, rfl⟩, by simp⟩
  | midb => obtain ⟨-, x, -, rfl⟩ := midbOp_ok_iff.1 h; exact ⟨⟨_, _, _, _, _, rfl⟩, by simp⟩
  | taila => obtain ⟨y, -, rfl⟩ := tailaOp_ok_iff.1 h; exact ⟨⟨_, _, _, _, _, rfl⟩, by simp⟩
  | final => cases h; exact ⟨⟨_, _, _, _, _, rfl⟩, by simp⟩
  | done => cases h; exact ⟨⟨_, _, _, _, _, rfl⟩, by simp⟩
  | fault => cases h; exact ⟨⟨_, _, _, _, _, rfl⟩, by simp⟩
  | reserved9 => cases h
  | reserved10to11 op => cases h
  | reserved12to15 op => cases h

/-- Fault entry writes `PHASE`, `CAUSE` and `FADDR` alone (60_exceptions R103). -/
theorem raiseFault_frame (f : Trap) (s : State) : ∃ cause faddr,
    raiseFault f s = { s with phase := phaseFault, cause := cause, faddr := faddr } := by
  cases f <;> exact ⟨_, _, rfl⟩

/-- What no operation writes. -/
theorem exec_frame {i : Instr} {s t : State} (h : exec i s = .next t) :
    ∃ h k pos len phase cause faddr, t = { s with
      h := h, k := k, pos := pos, len := len, phase := phase, cause := cause, faddr := faddr } := by
  obtain hok | ⟨f, -, rfl⟩ := exec_next_iff.1 h
  · obtain ⟨⟨h', k, pos, len, phase, rfl⟩, -⟩ := opWrites_ok_frame hok
    exact ⟨h', k, pos, len, phase, s.cause, s.faddr, rfl⟩
  · obtain ⟨cause, faddr, hf⟩ := raiseFault_frame f s
    exact ⟨s.h, s.k, s.pos, s.len, phaseFault, cause, faddr, hf⟩

/-- Settles O16: `opWrites_ok_frame` where the operation ends with its writes, `raiseFault_frame`
where it faults. -/
theorem operationsWriteOnlyTheirRegisters : Obligations.OperationsWriteOnlyTheirRegisters := by
  unfold Obligations.OperationsWriteOnlyTheirRegisters
  intro i s t h
  refine ⟨?_, ?_⟩
  · obtain ⟨_, _, _, _, _, _, _, rfl⟩ := exec_frame h
    exact ⟨rfl, rfl, fun _ => rfl, rfl, rfl, rfl, rfl⟩
  obtain hok | ⟨f, -, rfl⟩ := exec_next_iff.1 h
  · obtain ⟨⟨_, _, _, _, _, rfl⟩, hacc, hpos, hlen⟩ := opWrites_ok_frame hok
    exact ⟨hacc, hpos, hlen, fun _ => ⟨rfl, rfl⟩⟩
  · exact ⟨fun _ => ⟨raiseFault_h f s, raiseFault_k f s⟩, fun _ => raiseFault_pos f s,
      fun _ => raiseFault_len f s, fun hp => absurd (raiseFault_phase f s) hp⟩

/-! ### The waiting operations (42_controller R76, R83, R84) -/

theorem hold_eq (p : OpCode) (s : State) : hold p s = .next { s with phase := p } := rfl

theorem hold_of_phase {p : OpCode} {s : State} (h : s.phase = p) : hold p s = .next s := by
  rw [hold_eq, ← h]

/-- Settles O7: each of the three is `hold` of its own code. -/
theorem waitingOperationsChangeNothing : Obligations.WaitingOperationsChangeNothing := by
  unfold Obligations.WaitingOperationsChangeNothing
  intro s
  exact ⟨hold_eq 0#4 s, hold_eq 7#4 s, hold_eq 8#4 s, hold_of_phase, hold_of_phase, hold_of_phase⟩

/-- In `IDLE`, `DONE` and `FAULT` a core step changes nothing. -/
theorem coreStep_of_waiting {s : State} (h : s.phase = 0#4 ∨ s.phase = 7#4 ∨ s.phase = 8#4) :
    coreStep s = .next s := by
  rw [coreStep_eq]
  obtain h | h | h := h <;>
    exact (congrArg (fun p => exec (decode p) s) h).trans (hold_of_phase h)

end Sys2Proof.Machine
end

section
/-! The buffer under reads that wrap and under the moves of its owner (20_memory R31, R33). -/

namespace Sys2Proof.Machine

/-- The `j`-th index of a read, wrapping at 2^64. -/
theorem index_toNat_mod (a : Word) (j : Nat) :
    (a + BitVec.ofNat 64 j).toNat = (a.toNat + j) % 2 ^ 64 := by
  rw [BitVec.toNat_add, BitVec.toNat_ofNat, Nat.add_mod_mod]

/-- Settles O22: `memRead_ok_iff` with the wrapping index written as a number. -/
theorem readsWrapAtTheLastIndex : Obligations.ReadsWrapAtTheLastIndex := by
  unfold Obligations.ReadsWrapAtTheLastIndex
  intro m index n bs
  simp only [memRead_ok_iff, index_toNat_mod]

/-- Settles O46: what a buffer reads as after a change, and that a change keeps the canonical
form. -/
theorem bufferMovesChangeOneByte : Obligations.BufferMovesChangeOneByte := by
  unfold Obligations.BufferMovesChangeOneByte
  intro s index b
  refine ⟨⟨_, rfl, ?_, fun a ha => ?_, Memory.wf_place index b⟩,
    ⟨_, rfl, fun a ha => Memory.read_withdraw_of_ne ha, fun hwf => ?_⟩⟩
  · rw [Memory.read_place, if_pos rfl]
  · rw [Memory.read_place, if_neg ha]
  · exact ⟨Memory.read_withdraw_self index.toNat hwf, Memory.wf_withdraw index.toNat hwf⟩

end Sys2Proof.Machine
end

section
/-! The host's reads, and what every host step leaves alone (43_host R90 to R95). -/

namespace Sys2Proof.Machine

/-! ### The status word (10_state R23) -/

theorem doneLevel_iff (s : State) : doneLevel s = true ↔ s.phase = 7#4 := beq_iff_eq

theorem faultLevel_iff (s : State) : faultLevel s = true ↔ s.phase = 8#4 := beq_iff_eq

theorem toNat_eq_ite {b : Bool} {p : Prop} [Decidable p] (h : b = true ↔ p) :
    b.toNat = if p then 1 else 0 := by
  cases b <;> simp_all

theorem statusWord_toNat (s : State) :
    (statusWord s).toNat = 256 * s.phase.toNat + 16 * s.cause.toNat +
      4 * (faultLevel s).toNat + 2 * (doneLevel s).toNat + (busy s).toNat := by
  have hphase := s.phase.isLt
  have hcause := s.cause.isLt
  have hfault := (faultLevel s).toNat_lt
  have hdone := (doneLevel s).toNat_lt
  have hbusy := (busy s).toNat_lt
  simp only [statusWord, BitVec.toNat_setWidth, toNat_append_eq_add, BitVec.toNat_ofBool,
    BitVec.toNat_ofNat]
  omega

/-- Settles O36: `statusWord_toNat` with each level bit written by its phase. -/
theorem statusReadsPhaseAndCause : Obligations.StatusReadsPhaseAndCause := by
  unfold Obligations.StatusReadsPhaseAndCause
  intro s
  refine ⟨statusWord s, rfl, ?_⟩
  rw [statusWord_toNat, toNat_eq_ite (faultLevel_iff s), toNat_eq_ite (doneLevel_iff s),
    toNat_eq_ite (busy_iff s), mul_ite, mul_ite]

theorem statusWord_low_bits (s : State) :
    (statusWord s).getLsbD 0 = busy s ∧ (statusWord s).getLsbD 1 = doneLevel s ∧
      (statusWord s).getLsbD 2 = faultLevel s := by
  simp only [statusWord, BitVec.getLsbD_setWidth, BitVec.getLsbD_append, BitVec.getLsbD_ofBool]
  simp

/-- Settles O37: the three bits stand for three disjoint ranges of phases. -/
theorem statusBitsAreExclusive : Obligations.StatusBitsAreExclusive := by
  unfold Obligations.StatusBitsAreExclusive
  intro s
  simp only [← Bool.not_eq_true, busy_iff, doneLevel_iff, faultLevel_iff, ← BitVec.toNat_inj,
    BitVec.toNat_ofNat]
  exact ⟨by omega, by omega, by omega, by omega, statusWord_low_bits s⟩

/-! ### The other reads (R94, R95) -/

/-- Settles O38: the two branches of a read of `RESULT`. -/
theorem resultReadsHInDone : Obligations.ResultReadsHInDone := by
  unfold Obligations.ResultReadsHInDone
  intro s
  obtain ⟨hp, hr⟩ | ⟨hp, hr⟩ := readResult_cases s
  · exact ⟨fun _ => congrArg _ hr, fun h => absurd hp h⟩
  · exact ⟨fun h => absurd h hp, fun _ => ⟨_, congrArg _ hr⟩⟩

/-- Settles O39: the two branches of a read of `FADDR`; every other access by its number. -/
theorem remainingHostAccesses : Obligations.RemainingHostAccesses := by
  unfold Obligations.RemainingHostAccesses
  intro s
  refine ⟨rfl, rfl, rfl, ?_, ?_, fun v => ⟨rfl, rfl, rfl⟩⟩
  · intro hc
    obtain ⟨-, hr⟩ | ⟨hne, -⟩ := readFaddr_cases s
    · exact congrArg _ hr
    · exact absurd hc hne
  · intro hc
    obtain ⟨heq, -⟩ | ⟨-, hr⟩ := readFaddr_cases s
    · exact absurd heq hc
    · exact ⟨_, congrArg _ hr⟩

/-! ### What a host step leaves alone (R90) -/

/-- A host read changes the replies and the count of free values alone. -/
theorem hostRead_frame {num : Nat} {s t : State} (h : hostRead num s = .next t) :
    ∃ replies freeIndex, t = { s with replies := replies, freeIndex := freeIndex } := by
  obtain ⟨-, rfl⟩ | ⟨-, rfl⟩ | ⟨-, rfl⟩ | ⟨-, rfl⟩ | ⟨-, rfl⟩ | ⟨-, rfl⟩ := hostRead_next_iff.1 h
  · exact ⟨_, _, rfl⟩
  · exact ⟨_, _, rfl⟩
  · exact ⟨_, _, rfl⟩
  · exact ⟨_, _, rfl⟩
  · obtain ⟨-, hr⟩ | ⟨-, hr⟩ := readResult_cases s <;> rw [hr] <;> exact ⟨_, _, rfl⟩
  · obtain ⟨-, hr⟩ | ⟨-, hr⟩ := readFaddr_cases s <;> rw [hr] <;> exact ⟨_, _, rfl⟩

/-- A host write changes an argument outside `BUSY`, starts a run, or changes nothing. -/
theorem hostWrite_cases {num : Nat} {v : Word} {s t : State} (h : hostWrite num v s = .next t) :
    t = s ∨ (¬ busy s = true ∧ (t = { s with seed := v } ∨ t = { s with length := v })) ∨
      (num = 2 ∧ v.toNat % 2 = 1 ∧ (s.phase = 0#4 ∨ s.phase = 7#4) ∧
        t = { s with phase := 1#4 }) := by
  obtain ⟨-, rfl⟩ | ⟨-, rfl⟩ | ⟨hnum, rfl⟩ | ⟨-, -, rfl⟩ := hostWrite_next_iff.1 h
  · by_cases hb : busy s = true
    · exact .inl (writeSeed_of_busy v hb)
    · exact .inr (.inl ⟨hb, .inl (writeSeed_of_not_busy v hb)⟩)
  · by_cases hb : busy s = true
    · exact .inl (writeLength_of_busy v hb)
    · exact .inr (.inl ⟨hb, .inr (writeLength_of_not_busy v hb)⟩)
  · obtain ⟨hbit, hp, ht⟩ | ht := writeCtrl_cases v s
    · exact .inr (.inr ⟨hnum, (getLsbD_zero_iff_odd v).1 hbit, hp, ht⟩)
    · exact .inl ht
  · exact .inl rfl

/-- What a host step other than a reset can change. -/
theorem hostStep_frame {c : HostStep} {s t : State} (hc : c ≠ .reset)
    (h : hostStep c s = .next t) :
    ∃ seed length phase replies freeIndex, t = { s with
      seed := seed, length := length, phase := phase, replies := replies,
      freeIndex := freeIndex } := by
  cases c with
  | wr num v =>
    obtain rfl | ⟨-, rfl | rfl⟩ | ⟨-, -, -, rfl⟩ := hostWrite_cases h <;>
      exact ⟨_, _, _, _, _, rfl⟩
  | rd num =>
    obtain ⟨replies, freeIndex, rfl⟩ := hostRead_frame h
    exact ⟨_, _, _, _, _, rfl⟩
  | reset => exact absurd rfl hc

/-- A host step other than a reset leaves `PHASE` alone unless it is an accepted START (R92). -/
theorem hostStep_phase {c : HostStep} {s t : State} (hc : c ≠ .reset)
    (h : hostStep c s = .next t) :
    t.phase = s.phase ∨ ((∃ v, c = .wr 2 v ∧ v.toNat % 2 = 1) ∧
      (s.phase = 0#4 ∨ s.phase = 7#4) ∧ t.phase = 1#4) := by
  cases c with
  | wr num v =>
    obtain rfl | ⟨-, rfl | rfl⟩ | ⟨rfl, hv, hp, rfl⟩ := hostWrite_cases h
    · exact .inl rfl
    · exact .inl rfl
    · exact .inl rfl
    · exact .inr ⟨⟨v, rfl, hv⟩, hp, rfl⟩
  | rd num =>
    obtain ⟨replies, freeIndex, rfl⟩ := hostRead_frame h
    exact .inl rfl
  | reset => exact absurd rfl hc

theorem not_idle_or_done_of_busy {s : State} (hb : busy s = true) :
    ¬ (s.phase = 0#4 ∨ s.phase = 7#4) := by
  obtain ⟨hlow, hhigh⟩ := (busy_iff s).1 hb
  rintro (hp | hp) <;> rw [hp] at hlow hhigh <;> simp at hlow hhigh

/-- While `BUSY` a host step other than a reset is a read or is ignored (R91, R92). -/
theorem hostStep_of_busy {c : HostStep} {s t : State} (hb : busy s = true) (hc : c ≠ .reset)
    (h : hostStep c s = .next t) :
    ∃ replies freeIndex, t = { s with replies := replies, freeIndex := freeIndex } := by
  cases c with
  | wr num v =>
    obtain rfl | ⟨hfree, -⟩ | ⟨-, -, hp, -⟩ := hostWrite_cases h
    · exact ⟨_, _, rfl⟩
    · exact absurd hb hfree
    · exact absurd hp (not_idle_or_done_of_busy hb)
  | rd num => exact hostRead_frame h
  | reset => exact absurd rfl hc

/-- Settles O41: a reset leads to `IDLE`, an accepted START to INIT, and no other step changes
`PHASE`. -/
theorem hostStepsRaiseNoFault : Obligations.HostStepsRaiseNoFault := by
  unfold Obligations.HostStepsRaiseNoFault
  intro c s t h
  by_cases hc : c = .reset
  · subst hc
    cases h
    exact ⟨fun hp => absurd hp (by rw [applyReset_phase]; decide), rfl, rfl,
      fun hne => absurd rfl hne⟩
  · have hphase : t.phase = 8#4 → s.phase = 8#4 := fun ht => by
      obtain hkept | ⟨-, -, hstart⟩ := hostStep_phase hc h
      · exact hkept.symm.trans ht
      · exact absurd (hstart.symm.trans ht) (by decide)
    obtain ⟨_, _, _, _, _, rfl⟩ := hostStep_frame hc h
    exact ⟨hphase, rfl, rfl, fun _ => ⟨rfl, rfl, rfl, rfl, rfl, rfl⟩⟩

end Sys2Proof.Machine
end

section
/-! Reset, the phases that wait, and the arguments of a run under the steps of every agent (70_reset
R115, R116; 60_exceptions R107, R108; 43_host R91). -/

namespace Sys2Proof.Machine

open Sys2Proof.Safety

/-! ### Reset -/

theorem statusWord_eq_zero {s : State} (hp : s.phase = 0#4) (hc : s.cause = 0#2) :
    statusWord s = 0#64 := by
  simp [statusWord, faultLevel, doneLevel, busy, hp, hc]

/-- Settles O42: the named fields of `applyReset`, and `STATUS` of `PHASE = 0`, `CAUSE = 0`. -/
theorem resetReturnsToIdle : Obligations.ResetReturnsToIdle := by
  unfold Obligations.ResetReturnsToIdle
  intro s
  refine ⟨applyReset s, rfl, rfl, rfl, rfl, rfl, ?_, rfl⟩
  exact congrArg (fun v => Host.Outcome.next ((applyReset s).reply 3 v))
    (statusWord_eq_zero (applyReset_phase s) (applyReset_cause s))

/-! ### The moves of the agents other than the core -/

theorem ne_reset_of_noResetNext {s : State} {c : HostStep} {rest : List Move}
    (hn : NoResetNext s) (hs : s.schedule = .host c :: rest) : c ≠ .reset := by
  rintro rfl
  exact hn (by rw [hs]; rfl)

/-- A core step, or the move of another agent that is no reset. -/
theorem step_cases_of_noResetNext {s t : State} (hn : NoResetNext s) (h : step s = .next t) :
    (∃ sched, coreStep { s with schedule := sched } = .next t) ∨
      (∃ c rest, c ≠ .reset ∧ s.schedule = .host c :: rest ∧
        hostStep c { s with schedule := rest } = .next t) ∨
      ∃ rest m, t = { s with schedule := rest, buffer := m } := by
  obtain ⟨hs, hstep⟩ | ⟨m, rest, hs, hstep⟩ := step_cases s
  · exact .inl ⟨[], by rw [← h, hstep, ← hs]⟩
  · rw [hstep] at h
    cases m with
    | core => exact .inl ⟨rest, h⟩
    | host c => exact .inr (.inl ⟨c, rest, ne_reset_of_noResetNext hn hs, hs, h⟩)
    | place index b => cases h; exact .inr (.inr ⟨rest, _, rfl⟩)
    | withdraw index => cases h; exact .inr (.inr ⟨rest, _, rfl⟩)

/-! ### The phases that wait -/

/-- In `IDLE`, `DONE` and `FAULT` no step but a reset changes the working registers or the fault
record, and none but an accepted START changes `PHASE`. -/
theorem step_of_waiting {s t : State} (hw : s.phase = 0#4 ∨ s.phase = 7#4 ∨ s.phase = 8#4)
    (hn : NoResetNext s) (h : step s = .next t) :
    (t.h = s.h ∧ t.k = s.k ∧ t.pos = s.pos ∧ t.len = s.len ∧ t.cause = s.cause ∧
      t.faddr = s.faddr) ∧
    (t.phase = s.phase ∨ ((s.phase = 0#4 ∨ s.phase = 7#4) ∧ t.phase = 1#4 ∧
      ∃ v rest, s.schedule = .host (.wr 2 v) :: rest ∧ v.toNat % 2 = 1)) := by
  obtain ⟨sched, hcore⟩ | ⟨c, rest, hc, hs, hhost⟩ | ⟨rest, m, rfl⟩ :=
    step_cases_of_noResetNext hn h
  · rw [coreStep_of_waiting (s := { s with schedule := sched }) hw] at hcore
    cases hcore
    exact ⟨⟨rfl, rfl, rfl, rfl, rfl, rfl⟩, .inl rfl⟩
  · refine ⟨?_, ?_⟩
    · obtain ⟨_, _, _, _, _, rfl⟩ := hostStep_frame hc hhost
      exact ⟨rfl, rfl, rfl, rfl, rfl, rfl⟩
    · obtain hkept | ⟨⟨v, rfl, hv⟩, hp, ht⟩ := hostStep_phase hc hhost
      · exact .inl hkept
      · exact .inr ⟨hp, ht, v, rest, hs, hv⟩
  · exact ⟨⟨rfl, rfl, rfl, rfl, rfl, rfl⟩, .inl rfl⟩

/-- Settles O43: in `FAULT` no START is accepted. -/
theorem faultIsSticky : Obligations.FaultIsSticky := by
  unfold Obligations.FaultIsSticky
  intro s t hp hn h
  obtain ⟨⟨hh, hk, hpos, hlen, hcause, hfaddr⟩, hphase⟩ := step_of_waiting (.inr (.inr hp)) hn h
  refine ⟨?_, hcause, hfaddr, hh, hk, hpos, hlen⟩
  obtain hkept | ⟨hfree, -⟩ := hphase
  · exact hkept.trans hp
  · rw [hp] at hfree
    exact absurd hfree (by decide)

/-- Settles O44: `step_of_waiting` in `IDLE` and `DONE`. -/
theorem idleAndDoneAreLeftByStart : Obligations.IdleAndDoneAreLeftByStart := by
  unfold Obligations.IdleAndDoneAreLeftByStart
  intro s t hp hn h
  obtain ⟨⟨hh, -⟩, hphase⟩ := step_of_waiting (hp.imp_right .inl) hn h
  exact ⟨hh, hphase.imp_right And.right⟩

/-! ### The arguments of a run -/

/-- Settles O45: no operation writes an argument, and the host's writes are ignored. -/
theorem busyFreezesArguments : Obligations.BusyFreezesArguments := by
  unfold Obligations.BusyFreezesArguments
  intro s t hb hn h
  obtain ⟨sched, hcore⟩ | ⟨c, rest, hc, -, hhost⟩ | ⟨rest, m, rfl⟩ :=
    step_cases_of_noResetNext hn h
  · obtain ⟨_, _, _, _, _, _, _, rfl⟩ := exec_frame hcore
    exact ⟨rfl, rfl⟩
  · obtain ⟨_, _, rfl⟩ := hostStep_of_busy (s := { s with schedule := rest }) hb hc hhost
    exact ⟨rfl, rfl⟩
  · exact ⟨rfl, rfl⟩

end Sys2Proof.Machine
end

section
/-! The invariant: the positions of a run (10_state R15, 42_controller R74), the fault record
(60_exceptions R102) and the buffer's form, under the steps of every agent. -/

namespace Sys2Proof.Safety

open Sys2Proof.Machine

/-! ### The positions by phase -/

theorem PositionInv.blkb {s : State} (hp : PositionInv s) (h : s.phase = phaseBlkb) :
    s.pos.toNat + s.len.toNat = s.length.toNat ∧ s.pos.toNat % 16 = 0 ∧ 16 ≤ s.len.toNat := by
  obtain ⟨hblkb, -⟩ := hp
  exact hblkb h

theorem PositionInv.blka {s : State} (hp : PositionInv s) (h : s.phase = phaseBlka) :
    s.pos.toNat + s.len.toNat = s.length.toNat + 8 ∧ s.pos.toNat % 16 = 8 ∧
      16 ≤ s.len.toNat := by
  obtain ⟨-, hblka, -⟩ := hp
  exact hblka h

theorem PositionInv.midb {s : State} (hp : PositionInv s) (h : s.phase = phaseMidb) :
    s.pos.toNat + s.len.toNat = s.length.toNat ∧ s.pos.toNat % 8 = 0 ∧
      8 ≤ s.len.toNat ∧ s.len.toNat ≤ 15 := by
  obtain ⟨-, -, hmidb, -⟩ := hp
  exact hmidb h

theorem PositionInv.taila {s : State} (hp : PositionInv s) (h : s.phase = phaseTaila) :
    s.pos.toNat + s.len.toNat = s.length.toNat ∧ s.pos.toNat % 8 = 0 ∧
      1 ≤ s.len.toNat ∧ s.len.toNat ≤ 7 := by
  obtain ⟨-, -, -, htaila, -⟩ := hp
  exact htaila h

/-- The 8 bytes that a block operation reads lie below `LENGTH`. -/
theorem PositionInv.block_end {s : State} (hp : PositionInv s)
    (h : s.phase = phaseBlkb ∨ s.phase = phaseBlka ∨ s.phase = phaseMidb) :
    s.pos.toNat + 8 ≤ s.length.toNat := by
  obtain h | h | h := h
  · have := hp.blkb h
    omega
  · have := hp.blka h
    omega
  · have := hp.midb h
    omega

/-- The cursor does not wrap where it moves. -/
theorem PositionInv.next_pos {s : State} (hp : PositionInv s)
    (h : s.phase = phaseBlkb ∨ s.phase = phaseBlka ∨ s.phase = phaseMidb) :
    (s.pos + 8#64).toNat = s.pos.toNat + 8 := by
  have hend := hp.block_end h
  have hlength := s.length.isLt
  exact index_toNat (by omega)

theorem toNat_len_sub {s : State} {n : Nat} (h : n ≤ s.len.toNat) :
    (s.len - BitVec.ofNat 64 n).toNat = s.len.toNat - n := by
  have := s.len.isLt
  rw [BitVec.toNat_sub, BitVec.toNat_ofNat]
  omega

/-- Outside the phases of the cursor nothing is said of the positions. -/
theorem positionInv_of_no_cursor {s : State}
    (h : s.phase = phaseIdle ∨ s.phase = phaseInit ∨ s.phase = phaseDone ∨ s.phase = phaseFault) :
    PositionInv s := by
  obtain h | h | h | h := h <;> simp [PositionInv, h]

/-! ### Runs -/

/-- A run on its way or just finished, its positions in order. -/
structure RunInv (s : State) : Prop where
  positions : PositionInv s
  active : busy s = true ∨ s.phase = phaseDone

theorem busy_of_phase {s : State} {p : OpCode} (h : s.phase = p)
    (hp : 1 ≤ p.toNat ∧ p.toNat ≤ 6) : busy s = true :=
  (busy_iff s).2 (h ▸ hp)

theorem runInv_of_blka {s : State} (h : s.phase = phaseBlka)
    (hpos : s.pos.toNat + s.len.toNat = s.length.toNat + 8 ∧ s.pos.toNat % 16 = 8 ∧
      16 ≤ s.len.toNat) : RunInv s where
  positions := by simpa [PositionInv, h] using hpos
  active := .inl (busy_of_phase h (by decide))

theorem runInv_of_final {s : State} (h : s.phase = phaseFinal)
    (hpos : s.pos.toNat + s.len.toNat = s.length.toNat ∧ s.pos.toNat % 8 = 0 ∧
      s.len.toNat ≤ 7) : RunInv s where
  positions := by simpa [PositionInv, h] using hpos
  active := .inl (busy_of_phase h (by decide))

/-- `Dispatch` goes to the phase whose range of `LEN` it has found (42_controller R74, R75). -/
theorem runInv_of_dispatch {s : State} (h : s.phase = dispatch s.len)
    (hsum : s.pos.toNat + s.len.toNat = s.length.toNat) (hcursor : s.pos.toNat % 8 = 0)
    (hblock : 16 ≤ s.len.toNat → s.pos.toNat % 16 = 0) : RunInv s := by
  obtain ⟨hl, hd⟩ | ⟨hl, hl', hd⟩ | ⟨hl, hl', hd⟩ | ⟨hl, hd⟩ := dispatch_cases s.len
  all_goals
    have hphase := h.trans hd
    refine ⟨?_, .inl (busy_of_phase hphase (by decide))⟩
    simp [PositionInv, hphase]
    omega

/-- The phases of a `BUSY` core, each with the operation it decodes to (10_state R19, 30_encoding
R51). -/
theorem busy_cases {s : State} (hb : busy s = true) :
    (s.phase = phaseInit ∧ decode s.phase = .init) ∨
      (s.phase = phaseBlkb ∧ decode s.phase = .blkb) ∨
      (s.phase = phaseBlka ∧ decode s.phase = .blka) ∨
      (s.phase = phaseMidb ∧ decode s.phase = .midb) ∨
      (s.phase = phaseTaila ∧ decode s.phase = .taila) ∨
      (s.phase = phaseFinal ∧ decode s.phase = .final) := by
  rw [busy_iff] at hb
  generalize s.phase = p at hb ⊢
  revert p
  decide

/-- The writes of a `BUSY` core's operation keep the positions in order and go on to a phase of the
run or to `DONE`. -/
theorem runInv_of_opWrites {s t : State} (hp : PositionInv s) (hb : busy s = true)
    (h : opWrites (decode s.phase) s = .ok t) : RunInv t := by
  obtain ⟨hph, hop⟩ | ⟨hph, hop⟩ | ⟨hph, hop⟩ | ⟨hph, hop⟩ | ⟨hph, hop⟩ | ⟨hph, hop⟩ :=
    busy_cases hb
  · rw [hop] at h
    cases h
    exact runInv_of_dispatch rfl (by simp) (by simp) (by simp)
  · rw [hop] at h
    obtain ⟨-, x, -, rfl⟩ := blkbOp_ok_iff.1 h
    have hpos := hp.blkb hph
    have hnext := hp.next_pos (.inl hph)
    refine runInv_of_blka rfl ?_
    simp only [cwmixb_len, cwmixb_length, hnext]
    omega
  · rw [hop] at h
    obtain ⟨-, y, -, rfl⟩ := blkaOp_ok_iff.1 h
    obtain ⟨hsum, hmod, hlen⟩ := hp.blka hph
    have hnext := hp.next_pos (.inr (.inl hph))
    have hleft := toNat_len_sub hlen
    refine runInv_of_dispatch rfl ?_ ?_ ?_ <;> simp only [cwmixa_length, hnext, hleft] <;> omega
  · rw [hop] at h
    obtain ⟨-, x, -, rfl⟩ := midbOp_ok_iff.1 h
    obtain ⟨hsum, hmod, hlen, hlen'⟩ := hp.midb hph
    have hnext := hp.next_pos (.inr (.inr hph))
    have hleft := toNat_len_sub hlen
    refine runInv_of_dispatch rfl ?_ ?_ ?_ <;> simp only [cwmixb_length, hnext, hleft] <;> omega
  · rw [hop] at h
    obtain ⟨y, -, rfl⟩ := tailaOp_ok_iff.1 h
    obtain ⟨hsum, hmod, -, hlen⟩ := hp.taila hph
    exact runInv_of_final rfl ⟨hsum, hmod, hlen⟩
  · rw [hop] at h
    cases h
    exact ⟨positionInv_of_no_cursor (.inr (.inr (.inl rfl))), .inr rfl⟩

/-! ### A run faults with `MEM` alone (60_exceptions R102) -/

theorem get32_error_mem {m : Memory} {i : Word} {f : Trap} (h : get32 m i = .error f) :
    f = .mem i := by
  obtain ⟨hf, -⟩ := memRead_error_iff.1 (get32_error_iff.1 h)
  exact hf

theorem getP32_error_mem {m : Memory} {i : Word} {n : Nat} {f : Trap} (hn : 1 ≤ n ∧ n ≤ 3)
    (h : getP32 m i n = .error f) : f = .mem i := by
  obtain ⟨hrange, -⟩ | ⟨-, hread⟩ := getP32_error_iff.1 h
  · exact absurd hn hrange
  · obtain ⟨hf, -⟩ := memRead_error_iff.1 hread
    exact hf

theorem operandMem8_error_mem {s : State} {f : Trap} (h : operandMem8 s = .error f) :
    ∃ a, f = .mem a := by
  obtain hlow | ⟨w, -, hhigh⟩ := get64_error_iff.1 h
  · exact ⟨_, get32_error_mem hlow⟩
  · exact ⟨_, get32_error_mem hhigh⟩

theorem getP64_error_mem {m : Memory} {i : Word} {n : Nat} {f : Trap} (h1 : 1 ≤ n) (h7 : n ≤ 7)
    (h : getP64 m i n = .error f) : ∃ a, f = .mem a := by
  obtain hlt | rfl | hgt := Nat.lt_trichotomy n 4
  · rw [getP64_of_lt_four h1 hlt] at h
    obtain hread | ⟨w, -, hpure⟩ := bind_error_iff.1 h
    · exact ⟨_, getP32_error_mem (by omega) hread⟩
    · exact absurd hpure pure_ne_error
  · rw [getP64_four] at h
    obtain hread | ⟨w, -, hpure⟩ := bind_error_iff.1 h
    · exact ⟨_, get32_error_mem hread⟩
    · exact absurd hpure pure_ne_error
  · rw [getP64_of_gt_four hgt h7] at h
    obtain hlow | ⟨w, -, hrest⟩ := bind_error_iff.1 h
    · exact ⟨_, get32_error_mem hlow⟩
    · obtain hhigh | ⟨w', -, hpure⟩ := bind_error_iff.1 hrest
      · exact ⟨_, getP32_error_mem (by omega) hhigh⟩
      · exact absurd hpure pure_ne_error

/-- A block operation whose check of `LEN` holds faults with `MEM` alone. -/
theorem error_mem_of_faultsAsBlock {s : State} {c : Prop} {r : Except Trap State} {f : Trap}
    (hr : FaultsAsBlock s c r) (hc : c) (h : r = .error f) : ∃ a, f = .mem a := by
  obtain ⟨hno, -⟩ | ⟨-, hread⟩ := (hr f).1 h
  · exact absurd hc hno
  · exact operandMem8_error_mem hread

/-- The ranges of `LEN` in the positions are the checks of the operations, so that none of these
raises `CONTRACT`. -/
theorem opWrites_error_mem {s : State} {f : Trap} (hp : PositionInv s) (hb : busy s = true)
    (h : opWrites (decode s.phase) s = .error f) : ∃ a, f = .mem a := by
  obtain ⟨hph, hop⟩ | ⟨hph, hop⟩ | ⟨hph, hop⟩ | ⟨hph, hop⟩ | ⟨hph, hop⟩ | ⟨hph, hop⟩ :=
    busy_cases hb
  · rw [hop] at h
    cases h
  · rw [hop] at h
    obtain ⟨-, -, hlen⟩ := hp.blkb hph
    exact error_mem_of_faultsAsBlock (blkbOp_faultsAsBlock s) hlen h
  · rw [hop] at h
    obtain ⟨-, -, hlen⟩ := hp.blka hph
    exact error_mem_of_faultsAsBlock (blkaOp_faultsAsBlock s) hlen h
  · rw [hop] at h
    obtain ⟨-, -, hlen⟩ := hp.midb hph
    exact error_mem_of_faultsAsBlock (midbOp_faultsAsBlock s) hlen h
  · rw [hop] at h
    obtain ⟨-, -, hlen, hlen'⟩ := hp.taila hph
    exact getP64_error_mem hlen hlen' (tailaOp_error_iff.1 h)
  · rw [hop] at h
    cases h

/-! ### The fault record -/

theorem CauseInv.busy_or_waiting {s : State} (hc : CauseInv s) :
    busy s = true ∨ s.phase = 0#4 ∨ s.phase = 7#4 ∨ s.phase = 8#4 := by
  have hlegal : s.phase.toNat ≤ 8 := by
    obtain ⟨hp, -⟩ | ⟨hp, -⟩ := hc
    · rw [hp]
      decide
    · exact Nat.le_of_lt hp
  simp only [busy_iff, ← BitVec.toNat_inj, BitVec.toNat_ofNat]
  omega

theorem CauseInv.cause_none {s : State} (hc : CauseInv s) (hp : s.phase ≠ phaseFault) :
    s.cause = causeNone := by
  obtain ⟨hfault, -⟩ | ⟨-, hnone⟩ := hc
  · exact absurd hfault hp
  · exact hnone

theorem ne_fault_of_busy {s : State} (hb : busy s = true) : s.phase ≠ phaseFault := by
  obtain ⟨-, hhigh⟩ := (busy_iff s).1 hb
  intro hp
  rw [hp] at hhigh
  exact absurd hhigh (by decide)

theorem RunInv.phase_lt_fault {s : State} (h : RunInv s) : s.phase < phaseFault := by
  obtain hb | hd := h.active
  · obtain ⟨-, hhigh⟩ := (busy_iff s).1 hb
    exact Nat.lt_of_le_of_lt hhigh (by decide)
  · rw [hd]
    decide

/-! ### The steps -/

theorem stateInv_of_coreStep {s t : State} (hs : StateInv s) (h : coreStep s = .next t) :
    StateInv t := by
  obtain ⟨hp, hc, hwf⟩ := hs
  obtain hb | hw := hc.busy_or_waiting
  · rw [coreStep_eq] at h
    obtain hok | ⟨f, herr, rfl⟩ := exec_next_iff.1 h
    · have hrun := runInv_of_opWrites hp hb hok
      obtain ⟨⟨_, _, _, _, _, rfl⟩, -⟩ := opWrites_ok_frame hok
      exact ⟨hrun.positions, .inr ⟨hrun.phase_lt_fault, hc.cause_none (ne_fault_of_busy hb)⟩, hwf⟩
    · obtain ⟨a, rfl⟩ := opWrites_error_mem hp hb herr
      exact ⟨positionInv_of_no_cursor (.inr (.inr (.inr rfl))), .inl ⟨rfl, rfl⟩, hwf⟩
  · rw [coreStep_of_waiting hw] at h
    cases h
    exact ⟨hp, hc, hwf⟩

theorem stateInv_applyReset {s : State} (hwf : s.buffer.wf = true) : StateInv (applyReset s) :=
  ⟨positionInv_of_no_cursor (.inl rfl),
    .inr ⟨by rw [applyReset_phase]; decide, applyReset_cause s⟩, hwf⟩

theorem stateInv_of_hostStep {c : HostStep} {s t : State} (hs : StateInv s)
    (h : hostStep c s = .next t) : StateInv t := by
  obtain ⟨hp, hc, hwf⟩ := hs
  by_cases hreset : c = .reset
  · subst hreset
    cases h
    exact stateInv_applyReset hwf
  obtain hb | hw := hc.busy_or_waiting
  · obtain ⟨_, _, rfl⟩ := hostStep_of_busy hb hreset h
    exact ⟨hp, hc, hwf⟩
  · have hphase := hostStep_phase hreset h
    obtain ⟨_, _, _, _, _, rfl⟩ := hostStep_frame hreset h
    obtain rfl | ⟨-, hfree, rfl⟩ := hphase
    · exact ⟨positionInv_of_no_cursor (hw.imp_right .inr), hc, hwf⟩
    · have hnone := hc.cause_none fun hfault => by simp [hfault] at hfree
      exact ⟨positionInv_of_no_cursor (.inr (.inl rfl)), .inr ⟨(by decide : 1#4 < 8#4), hnone⟩, hwf⟩

/-- Settles O28: by the agent that moves; a change of the buffer keeps its canonical form. -/
theorem everyStepKeepsInv : Obligations.EveryStepKeepsInv := by
  unfold Obligations.EveryStepKeepsInv
  rintro s t ⟨hp, hc, hwf⟩ h
  obtain ⟨-, hstep⟩ | ⟨m, rest, -, hstep⟩ := step_cases s <;> rw [hstep] at h
  · exact stateInv_of_coreStep ⟨hp, hc, hwf⟩ h
  have hrest : StateInv { s with schedule := rest } := ⟨hp, hc, hwf⟩
  cases m with
  | core => exact stateInv_of_coreStep hrest h
  | host c => exact stateInv_of_hostStep hrest h
  | place index b => cases h; exact ⟨hp, hc, Memory.wf_place index b hwf⟩
  | withdraw index => cases h; exact ⟨hp, hc, Memory.wf_withdraw index.toNat hwf⟩

/-- Settles O29: both are in `IDLE` with `CAUSE = NONE`. -/
theorem resetMeetsInv : Obligations.ResetMeetsInv := by
  unfold Obligations.ResetMeetsInv
  exact ⟨⟨positionInv_of_no_cursor (.inl rfl), .inr ⟨by decide, rfl⟩, Memory.wf_reset⟩,
    fun _ => stateInv_applyReset⟩

end Sys2Proof.Safety
end

section
/-! A run with a readable input (42_controller R86, R87; 20_memory R33, R41): what each core step of
it does to the hash still to be computed and to the number of steps left. -/

namespace Sys2Proof.Safety

open Sys2Proof.Machine

/-! ### The input as the operations read it -/

theorem length_inputData (s : State) : (inputData s).length = s.length.toNat := by
  simp [inputData]

theorem holds_inputData {s : State} (hb : BufferReady s) : Holds s.buffer 0 (inputData s) := by
  intro j hj
  rw [length_inputData] at hj
  obtain ⟨b, hread⟩ := Option.isSome_iff_exists.1 (hb j hj)
  simp [inputData, hread]

theorem holds_inputData_slice {s : State} (hb : BufferReady s) (i n : Nat) :
    Holds s.buffer i (((inputData s).drop i).take n) := by
  simpa using holds_take (holds_drop (holds_inputData hb) i) n

theorem length_inputData_slice {s : State} {i n : Nat} (h : i + n ≤ s.length.toNat) :
    (((inputData s).drop i).take n).length = n := by
  rw [List.length_take, List.length_drop, length_inputData]
  omega

theorem operandMem8_of_ready {s : State} (hb : BufferReady s)
    (hend : s.pos.toNat + 8 ≤ s.length.toNat) :
    operandMem8 s = .ok (u64 (inputData s) s.pos.toNat) := by
  have := s.length.isLt
  exact operandMem8_of_holds (by omega) (length_inputData_slice hend) (holds_inputData_slice hb _ _)

theorem operandMemP_of_ready {s : State} (hb : BufferReady s) (h1 : 1 ≤ s.len.toNat)
    (h7 : s.len.toNat ≤ 7) (hend : s.pos.toNat + s.len.toNat ≤ s.length.toNat) :
    operandMemP s = .ok (tailValue (((inputData s).drop s.pos.toNat).take s.len.toNat)) := by
  have := s.length.isLt
  exact operandMemP_of_holds h1 h7 (by omega) (length_inputData_slice hend)
    (holds_inputData_slice hb _ _)

/-! ### The hash, unrolled by what the next operation takes off -/

theorem hashFrom_of_block (d : List Byte) (i : Nat) {n : Nat} (hk : Word × Word) (h : 16 ≤ n) :
    hashFrom d i n hk =
      hashFrom d (i + 16) (n - 16) (mixM (u64 d (i + 8)) (mixN (u64 d i) hk)) := by
  have hdiv : n / 16 = (n - 16) / 16 + 1 := by omega
  have hmod : n % 16 = (n - 16) % 16 := by omega
  rw [hashFrom, hashFrom, hdiv, hmod, hashBlocks]
  congr 1
  omega

/-- Of fewer than 16 bytes no block is left. -/
theorem hashFrom_of_lt_block (d : List Byte) (i : Nat) {n : Nat} (hk : Word × Word) (h : n < 16) :
    hashFrom d i n hk = hashMid d i n hk := by
  rw [hashFrom, Nat.div_eq_of_lt h, Nat.mod_eq_of_lt h]
  rfl

theorem hashFrom_of_lt_mid (d : List Byte) (i : Nat) {n : Nat} (hk : Word × Word) (h : n < 8) :
    hashFrom d i n hk = hashTail d i n hk := by
  rw [hashFrom_of_lt_block d i hk (by omega), hashMid, if_neg (by omega)]

theorem hashFrom_of_mid (d : List Byte) (i : Nat) {n : Nat} (hk : Word × Word) (h8 : 8 ≤ n)
    (h15 : n ≤ 15) : hashFrom d i n hk = hashFrom d (i + 8) (n - 8) (mixN (u64 d i) hk) := by
  rw [hashFrom_of_lt_block d i hk (by omega), hashMid, if_pos h8,
    hashFrom_of_lt_mid d (i + 8) _ (by omega)]

theorem hashFrom_of_tail (d : List Byte) (i : Nat) {n : Nat} (hk : Word × Word) (h1 : 1 ≤ n)
    (h7 : n ≤ 7) :
    hashFrom d i n hk = hashFinal (mixM (tailValue ((d.drop i).take n)) hk) := by
  rw [hashFrom_of_lt_mid d i hk (by omega), hashTail, if_pos (show 0 < n from h1)]

theorem hashFrom_zero (d : List Byte) (i : Nat) (hk : Word × Word) :
    hashFrom d i 0 hk = hashFinal hk := by
  rw [hashFrom_of_lt_mid d i hk (by decide), hashTail, if_neg (by decide)]

/-! ### The steps left (42_controller R86) -/

/-- The core steps from a dispatch on `n` bytes left up to `DONE`. -/
def stepsFrom (n : Nat) : Nat :=
  1 + 2 * (n / 16) + (if 8 ≤ n % 16 then 1 else 0) + (if n % 8 ≠ 0 then 1 else 0)

/-- The number of core steps that the run in progress still takes, read off a state as
`pendingResult` is; `runSteps_eq` ties it to R86, `coreStep_of_busy` to the model's steps. -/
def stepsLeft (s : State) : Nat :=
  if s.phase = phaseInit then runSteps s.length.toNat
  else if s.phase = phaseBlka then stepsFrom (s.len.toNat - 16) + 1
  else if s.phase = phaseFinal then 1
  else if s.phase = phaseDone then 0
  else stepsFrom s.len.toNat

theorem runSteps_eq (n : Nat) : runSteps n = stepsFrom n + 1 := by
  rw [runSteps, stepsFrom]
  omega

theorem stepsFrom_of_block {n : Nat} (h : 16 ≤ n) : stepsFrom n = stepsFrom (n - 16) + 2 := by
  have hdiv : n / 16 = (n - 16) / 16 + 1 := by omega
  have hmod : n % 16 = (n - 16) % 16 := by omega
  have hmod' : n % 8 = (n - 16) % 8 := by omega
  rw [stepsFrom, stepsFrom, hdiv, hmod, hmod']
  ring

theorem stepsFrom_of_mid {n : Nat} (h8 : 8 ≤ n) (h15 : n ≤ 15) :
    stepsFrom n = stepsFrom (n - 8) + 1 := by
  unfold stepsFrom
  split_ifs <;> omega

theorem stepsFrom_of_tail {n : Nat} (h1 : 1 ≤ n) (h7 : n ≤ 7) : stepsFrom n = 2 := by
  unfold stepsFrom
  split_ifs <;> omega

/-! ### What is pending, by phase -/

/-- The run will deliver `r`, in `n` core steps. -/
def Pending (s : State) (r : Word) (n : Nat) : Prop := pendingResult s = r ∧ stepsLeft s = n

theorem pending_of_init {s : State} (h : s.phase = phaseInit) :
    Pending s (hashOf (inputData s) s.seed) (stepsFrom s.length.toNat + 1) := by
  simp [Pending, pendingResult, stepsLeft, h, runSteps_eq]

theorem pending_of_blka {s : State} (h : s.phase = phaseBlka) :
    Pending s (hashFrom (inputData s) (s.pos.toNat + 8) (s.len.toNat - 16)
      (mixM (u64 (inputData s) s.pos.toNat) (s.h, s.k))) (stepsFrom (s.len.toNat - 16) + 1) := by
  simp [Pending, pendingResult, stepsLeft, h]

theorem pending_of_final {s : State} (h : s.phase = phaseFinal) :
    Pending s (hashFinal (s.h, s.k)) 1 := by
  simp [Pending, pendingResult, stepsLeft, h]

theorem pending_of_done {s : State} (h : s.phase = phaseDone) : Pending s s.h 0 := by
  simp [Pending, pendingResult, stepsLeft, h]

theorem pending_of_cursor {s : State}
    (h : s.phase = phaseBlkb ∨ s.phase = phaseMidb ∨ s.phase = phaseTaila) :
    Pending s (hashFrom (inputData s) s.pos.toNat s.len.toNat (s.h, s.k))
      (stepsFrom s.len.toNat) := by
  obtain h | h | h := h <;> simp [Pending, pendingResult, stepsLeft, h]

/-- After a dispatch what is pending is the hash of the bytes left, in the steps for them. -/
theorem pending_of_dispatch {s : State} (h : s.phase = dispatch s.len) :
    Pending s (hashFrom (inputData s) s.pos.toNat s.len.toNat (s.h, s.k))
      (stepsFrom s.len.toNat) := by
  obtain ⟨-, hd⟩ | ⟨-, -, hd⟩ | ⟨-, -, hd⟩ | ⟨hl, hd⟩ := dispatch_cases s.len
  · exact pending_of_cursor (.inl (h.trans hd))
  · exact pending_of_cursor (.inr (.inl (h.trans hd)))
  · exact pending_of_cursor (.inr (.inr (h.trans hd)))
  · rw [hl, hashFrom_zero]
    exact pending_of_final (h.trans hd)

/-! ### One core step of a run, by its phase -/

/-- The next state has the same result pending, in one step fewer. -/
def Advances (s t : State) : Prop :=
  pendingResult t = pendingResult s ∧ stepsLeft s = stepsLeft t + 1

theorem Pending.advances {s t : State} {r r' : Word} {n n' : Nat} (hs : Pending s r n)
    (ht : Pending t r' n') (hr : r' = r) (hn : n = n' + 1) : Advances s t := by
  obtain ⟨rfl, rfl⟩ := hs
  obtain ⟨rfl, rfl⟩ := ht
  exact ⟨hr, hn⟩

/-- INIT sets the accumulators to the hash's start and dispatches on the whole input (R77, R87). -/
theorem advances_init {s : State} (hph : s.phase = phaseInit) : Advances s (initOp s) := by
  refine (pending_of_init hph).advances (pending_of_dispatch rfl) ?_ rfl
  rw [hashOf, length_inputData, BitVec.ofNat_toNat, BitVec.setWidth_eq]
  rfl

/-- BLKB takes the first 8 bytes of a block (R78, R87). -/
theorem advances_blkb {s : State} (hp : PositionInv s) (hb : BufferReady s)
    (hph : s.phase = phaseBlkb) : ∃ t, blkbOp s = .ok t ∧ Advances s t := by
  obtain ⟨-, -, hlen⟩ := hp.blkb hph
  have hread := operandMem8_of_ready hb (hp.block_end (.inl hph))
  refine ⟨_, blkbOp_ok_iff.2 ⟨hlen, _, hread, rfl⟩,
    (pending_of_cursor (.inl hph)).advances (pending_of_blka rfl) ?_ (stepsFrom_of_block hlen)⟩
  rw [hashFrom_of_block _ _ _ hlen]
  simp only [hp.next_pos (.inl hph)]
  rfl

/-- BLKA takes the other 8 bytes of a block (R79, R87). -/
theorem advances_blka {s : State} (hp : PositionInv s) (hb : BufferReady s)
    (hph : s.phase = phaseBlka) : ∃ t, blkaOp s = .ok t ∧ Advances s t := by
  obtain ⟨-, -, hlen⟩ := hp.blka hph
  have hread := operandMem8_of_ready hb (hp.block_end (.inr (.inl hph)))
  refine ⟨_, blkaOp_ok_iff.2 ⟨hlen, _, hread, rfl⟩,
    (pending_of_blka hph).advances (pending_of_dispatch rfl) ?_ ?_⟩
  · simp only [hp.next_pos (.inr (.inl hph)), toNat_len_sub hlen]
    rfl
  · rw [toNat_len_sub hlen]

/-- MIDB takes 8 of the 8 to 15 bytes left (R80, R87). -/
theorem advances_midb {s : State} (hp : PositionInv s) (hb : BufferReady s)
    (hph : s.phase = phaseMidb) : ∃ t, midbOp s = .ok t ∧ Advances s t := by
  obtain ⟨-, -, hlen, hlen'⟩ := hp.midb hph
  have hread := operandMem8_of_ready hb (hp.block_end (.inr (.inr hph)))
  refine ⟨_, midbOp_ok_iff.2 ⟨⟨hlen, hlen'⟩, _, hread, rfl⟩,
    (pending_of_cursor (.inr (.inl hph))).advances (pending_of_dispatch rfl) ?_ ?_⟩
  · rw [hashFrom_of_mid _ _ _ hlen hlen']
    simp only [hp.next_pos (.inr (.inr hph)), toNat_len_sub hlen]
    rfl
  · rw [stepsFrom_of_mid hlen hlen', toNat_len_sub hlen]

/-- TAILA takes the 1 to 7 bytes left (R81, R87). -/
theorem advances_taila {s : State} (hp : PositionInv s) (hb : BufferReady s)
    (hph : s.phase = phaseTaila) : ∃ t, tailaOp s = .ok t ∧ Advances s t := by
  obtain ⟨hsum, -, hlen, hlen'⟩ := hp.taila hph
  have hread := operandMemP_of_ready hb hlen hlen' hsum.le
  refine ⟨_, tailaOp_ok_iff.2 ⟨_, hread, rfl⟩,
    (pending_of_cursor (.inr (.inr hph))).advances (pending_of_final rfl) ?_
      (stepsFrom_of_tail hlen hlen')⟩
  rw [hashFrom_of_tail _ _ _ hlen hlen']
  rfl

/-- FINAL is the finalisation (R82, R87). -/
theorem advances_final {s : State} (hph : s.phase = phaseFinal) : Advances s (finalOp s) :=
  (pending_of_final hph).advances (pending_of_done rfl) rfl rfl

/-! ### One core step of a run -/

theorem opWrites_advances {s : State} (hp : PositionInv s) (hb : BufferReady s)
    (hbusy : busy s = true) : ∃ t, opWrites (decode s.phase) s = .ok t ∧ Advances s t := by
  obtain ⟨hph, hop⟩ | ⟨hph, hop⟩ | ⟨hph, hop⟩ | ⟨hph, hop⟩ | ⟨hph, hop⟩ | ⟨hph, hop⟩ :=
    busy_cases hbusy
  · rw [hop]
    exact ⟨_, rfl, advances_init hph⟩
  · rw [hop]
    exact advances_blkb hp hb hph
  · rw [hop]
    exact advances_blka hp hb hph
  · rw [hop]
    exact advances_midb hp hb hph
  · rw [hop]
    exact advances_taila hp hb hph
  · rw [hop]
    exact ⟨_, rfl, advances_final hph⟩

/-- A core step of a run with a readable input raises no fault, keeps the run in order, brings the
result one step nearer and writes none of the registers or bytes that the run depends on. -/
theorem coreStep_of_busy {s : State} (hp : PositionInv s) (hb : BufferReady s)
    (hbusy : busy s = true) :
    ∃ t, coreStep s = .next t ∧ RunInv t ∧ Advances s t ∧
      ∃ h k pos len phase,
        t = { s with h := h, k := k, pos := pos, len := len, phase := phase } := by
  obtain ⟨t, hok, hadv⟩ := opWrites_advances hp hb hbusy
  obtain ⟨hframe, -⟩ := opWrites_ok_frame hok
  exact ⟨t, exec_next_iff.2 (.inl hok), runInv_of_opWrites hp hbusy hok, hadv, hframe⟩

/-- Settles O30: a waiting phase changes nothing, and in a `BUSY` one `coreStep_of_busy` raises no
fault. -/
theorem noFaultUnderHostDuty : Obligations.NoFaultUnderHostDuty := by
  unfold Obligations.NoFaultUnderHostDuty
  rintro s ⟨hp, hc, -⟩ hb hfault
  obtain hbusy | hw := hc.busy_or_waiting
  · obtain ⟨t, hstep, hrun, -, _, _, _, _, _, rfl⟩ := coreStep_of_busy hp hb hbusy
    exact ⟨_, hstep, BitVec.ne_of_lt hrun.phase_lt_fault, hc.cause_none hfault⟩
  · exact ⟨s, coreStep_of_waiting hw, hfault, hc.cause_none hfault⟩

/-! ### The result of a run in progress -/

/-- What a core step of a run leaves, stated of a given next state. -/
theorem pending_of_coreStep {s t : State} (hp : PositionInv s) (hb : BufferReady s)
    (hbusy : busy s = true) (h : coreStep s = .next t) :
    pendingResult t = pendingResult s ∧ BufferReady t ∧ (busy t = true ∨ t.phase = 7#4) := by
  obtain ⟨t', hstep, hrun, ⟨hresult, -⟩, _, _, _, _, _, rfl⟩ := coreStep_of_busy hp hb hbusy
  cases hstep.symm.trans h
  exact ⟨hresult, hb, hrun.active⟩

theorem pending_of_hostStep {c : HostStep} {s t : State} (hb : BufferReady s)
    (hbusy : busy s = true) (hc : c ≠ .reset) (h : hostStep c s = .next t) :
    pendingResult t = pendingResult s ∧ BufferReady t ∧ (busy t = true ∨ t.phase = 7#4) := by
  obtain ⟨_, _, rfl⟩ := hostStep_of_busy hbusy hc h
  exact ⟨rfl, hb, .inl hbusy⟩

theorem quietMove_of_quietNext {s : State} {m : Move} {rest : List Move} (hq : QuietNext s)
    (hs : s.schedule = m :: rest) : quietMove m = true :=
  hq m (by rw [hs]; rfl)

/-- Settles O31: the quiet moves are the core's, and the host's other than a reset. -/
theorem pendingResultIsKept : Obligations.PendingResultIsKept := by
  unfold Obligations.PendingResultIsKept
  rintro s t ⟨hp, -, -⟩ hb hbusy hq h
  obtain ⟨-, hstep⟩ | ⟨m, rest, hs, hstep⟩ := step_cases s <;> rw [hstep] at h
  · exact pending_of_coreStep hp hb hbusy h
  have hquiet := quietMove_of_quietNext hq hs
  cases m with
  | core => exact pending_of_coreStep (s := { s with schedule := rest }) hp hb hbusy h
  | host c =>
    have hc : c ≠ .reset := by
      rintro rfl
      cases hquiet
    exact pending_of_hostStep (s := { s with schedule := rest }) hb hbusy hc h
  | place index b => cases hquiet
  | withdraw index => cases hquiet

/-! ### A whole run -/

theorem core_run_succ {M : Host.Core} {s t : M.State} (h : M.step s = .next t) (n : Nat) :
    M.run (n + 1) s = M.run n t := by
  rw [Host.Core.run, h]

theorem run_zero (s : State) : Host.Core.run Sys2Proof.core 0 s = .next s := rfl

theorem run_succ_of_step {s t : State} (h : step s = .next t) (n : Nat) :
    Host.Core.run Sys2Proof.core (n + 1) s = Host.Core.run Sys2Proof.core n t :=
  core_run_succ (M := Sys2Proof.core) h n

theorem stepsLeft_pos_of_busy {s : State} (hp : PositionInv s) (hb : BufferReady s)
    (hbusy : busy s = true) : 0 < stepsLeft s := by
  obtain ⟨t, -, -, hsteps⟩ := opWrites_advances hp hb hbusy
  omega

/-- With nothing else scheduled a run is `BUSY` until its last step and then delivers what was
pending. -/
theorem run_delivers {n : Nat} {s : State} (hn : stepsLeft s = n) (hrun : RunInv s)
    (hb : BufferReady s) (hs : s.schedule = []) :
    (∀ m < n, ∃ u : State, Host.Core.run Sys2Proof.core m s = .next u ∧ busy u = true) ∧
    ∃ t : State, Host.Core.run Sys2Proof.core n s = .next t ∧ t.phase = 7#4 ∧
      t.h = pendingResult s ∧ t.cause = s.cause ∧ t.faddr = s.faddr ∧ t.seed = s.seed ∧
      t.length = s.length ∧ t.buffer = s.buffer := by
  induction n generalizing s with
  | zero =>
    have hdone : s.phase = 7#4 := hrun.active.resolve_left fun hbusy =>
      absurd (stepsLeft_pos_of_busy hrun.positions hb hbusy) (by omega)
    exact ⟨by simp, s, run_zero s, hdone, (pending_of_done hdone).1.symm, rfl, rfl, rfl, rfl,
      rfl⟩
  | succ n ih =>
    have hbusy : busy s = true := hrun.active.resolve_right fun hdone => by
      obtain ⟨-, hzero⟩ := pending_of_done hdone
      omega
    obtain ⟨t, hstep, hrun', ⟨hresult, hsteps⟩, hframe⟩ :=
      coreStep_of_busy hrun.positions hb hbusy
    rw [← step_of_nil hs] at hstep
    obtain ⟨_, _, _, _, _, rfl⟩ := hframe
    obtain ⟨hbefore, u, hu, hphase, hh, hkept⟩ := ih (by omega) hrun' hb hs
    refine ⟨fun m hm => ?_, u, ?_, hphase, hh.trans hresult, hkept⟩
    · cases m with
      | zero => exact ⟨s, run_zero s, hbusy⟩
      | succ m =>
        obtain ⟨v, hv, hvbusy⟩ := hbefore m (by omega)
        exact ⟨v, (run_succ_of_step hstep m).trans hv, hvbusy⟩
    · exact (run_succ_of_step hstep n).trans hu

/-- Settles O32: `run_delivers` from INIT, where the hash of the whole input is pending. -/
theorem runDeliversHash : Obligations.RunDeliversHash := by
  unfold Obligations.RunDeliversHash
  intro s hph hs hb
  have hrun : RunInv s :=
    ⟨positionInv_of_no_cursor (.inr (.inl hph)), .inl (busy_of_phase hph (by decide))⟩
  obtain ⟨hresult, hsteps⟩ := pending_of_init hph
  rw [← hresult, runSteps_eq]
  exact run_delivers hsteps hrun hb hs

end Sys2Proof.Safety
end

section
/-! Bytes at and above `LENGTH` (20_memory R41): the operations read none of them. -/

namespace Sys2Proof.Safety

open Sys2Proof.Machine

/-! ### Reads of two buffers that agree below a bound -/

section Agree

variable {m m' : Memory} {bound : Word} (hagree : ∀ i < bound.toNat, m.read i = m'.read i)

include hagree

theorem readBytes_congr {n : Nat} {a : Word} (hend : a.toNat + n ≤ bound.toNat) :
    m.readBytes a n = m'.readBytes a n := by
  induction n generalizing a with
  | zero => rfl
  | succ n ih =>
    have hbound := bound.isLt
    rw [Memory.readBytes, Memory.readBytes, hagree a.toNat (by omega)]
    obtain rfl | hn := Nat.eq_zero_or_pos n
    · rfl
    · have hnext : (a + 1#64).toNat = a.toNat + 1 := index_toNat (by omega)
      rw [ih (by omega)]

theorem memRead_congr {n : Nat} {a : Word} (hend : a.toNat + n ≤ bound.toNat) :
    memRead m a n = memRead m' a n := by
  rw [memRead, memRead, readBytes_congr hagree hend]

theorem get32_congr {i : Word} (hend : i.toNat + 4 ≤ bound.toNat) : get32 m i = get32 m' i := by
  rw [get32, get32, memRead_congr hagree hend]

theorem getP32_congr {i : Word} {n : Nat} (hend : i.toNat + n ≤ bound.toNat) :
    getP32 m i n = getP32 m' i n := by
  rw [getP32, getP32, memRead_congr hagree hend]

theorem get64_congr {i : Word} (hend : i.toNat + 8 ≤ bound.toNat) : get64 m i = get64 m' i := by
  have hbound := bound.isLt
  have hnext : (i + 4#64).toNat = i.toNat + 4 := index_toNat (by omega)
  rw [get64, get64, get32_congr hagree (by omega), get32_congr hagree (i := i + 4#64) (by omega)]

theorem getP64_congr {i : Word} {n : Nat} (h1 : 1 ≤ n) (h7 : n ≤ 7)
    (hend : i.toNat + n ≤ bound.toNat) : getP64 m i n = getP64 m' i n := by
  obtain hlt | rfl | hgt := Nat.lt_trichotomy n 4
  · rw [getP64_of_lt_four h1 hlt, getP64_of_lt_four h1 hlt, getP32_congr hagree hend]
  · rw [getP64_four, getP64_four, get32_congr hagree hend]
  · have hbound := bound.isLt
    have hnext : (i + 4#64).toNat = i.toNat + 4 := index_toNat (by omega)
    rw [getP64_of_gt_four hgt h7, getP64_of_gt_four hgt h7, get32_congr hagree (by omega),
      getP32_congr hagree (i := i + 4#64) (by omega)]

end Agree

/-! ### Operations with another buffer -/

theorem cwmixb_with_buffer (x : Word) (m : Memory) (s : State) :
    cwmixb x { s with buffer := m } = { cwmixb x s with buffer := m } := by
  simp only [cwmixb, cwfold_h_k]

theorem cwmixa_with_buffer (y : Word) (m : Memory) (s : State) :
    cwmixa y { s with buffer := m } = { cwmixa y s with buffer := m } := by
  simp only [cwmixa, cwfold_k_h]

theorem initOp_with_buffer (m : Memory) (s : State) :
    initOp { s with buffer := m } = { initOp s with buffer := m } := by
  rw [initOp, initOp]

theorem finalOp_with_buffer (m : Memory) (s : State) :
    finalOp { s with buffer := m } = { finalOp s with buffer := m } := by
  simp only [finalOp, operandFin, cwmixb, cwfold_h_k]

theorem raiseFault_with_buffer (f : Trap) (m : Memory) (s : State) :
    raiseFault f { s with buffer := m } = { raiseFault f s with buffer := m } := by
  cases f <;> rfl

/-- With the buffer `m` in place of its own, the operation makes the same writes or raises the same
fault. -/
def SameWith (m : Memory) (op : State → Except Trap State) (s : State) : Prop :=
  op { s with buffer := m } = (op s).map fun t => { t with buffer := m }

section Block

variable {m : Memory} {s : State}
  (hread : operandMem8 { s with buffer := m } = operandMem8 s)

include hread

theorem blkbOp_sameWith : SameWith m blkbOp s := by
  simp only [SameWith, blkbOp, hread, cwmixb_with_buffer]
  cases require (decide (16#64 ≤ s.len)) <;> cases operandMem8 s <;> rfl

theorem blkaOp_sameWith : SameWith m blkaOp s := by
  simp only [SameWith, blkaOp, hread, cwmixa_with_buffer]
  cases require (decide (16#64 ≤ s.len)) <;> cases operandMem8 s <;> rfl

theorem midbOp_sameWith : SameWith m midbOp s := by
  simp only [SameWith, midbOp, hread, cwmixb_with_buffer]
  cases require (decide (8#64 ≤ s.len) && decide (s.len ≤ 15#64)) <;> cases operandMem8 s <;> rfl

end Block

theorem tailaOp_sameWith {m : Memory} {s : State}
    (hread : operandMemP { s with buffer := m } = operandMemP s) : SameWith m tailaOp s := by
  simp only [SameWith, tailaOp, hread, cwmixa_with_buffer]
  cases operandMemP s <;> rfl

/-- The operation of a `BUSY` core reads below `LENGTH` alone. -/
theorem opWrites_sameWith {m : Memory} {s : State} (hp : PositionInv s) (hb : busy s = true)
    (hagree : ∀ i < s.length.toNat, m.read i = s.buffer.read i) :
    SameWith m (opWrites (decode s.phase)) s := by
  obtain ⟨hph, hop⟩ | ⟨hph, hop⟩ | ⟨hph, hop⟩ | ⟨hph, hop⟩ | ⟨hph, hop⟩ | ⟨hph, hop⟩ :=
    busy_cases hb
  · rw [hop]
    exact congrArg Except.ok (initOp_with_buffer m s)
  · rw [hop]
    exact blkbOp_sameWith (get64_congr hagree (hp.block_end (.inl hph)))
  · rw [hop]
    exact blkaOp_sameWith (get64_congr hagree (hp.block_end (.inr (.inl hph))))
  · rw [hop]
    exact midbOp_sameWith (get64_congr hagree (hp.block_end (.inr (.inr hph))))
  · rw [hop]
    obtain ⟨hsum, -, hlen, hlen'⟩ := hp.taila hph
    exact tailaOp_sameWith (getP64_congr hagree hlen hlen' hsum.le)
  · rw [hop]
    exact congrArg Except.ok (finalOp_with_buffer m s)

/-- Settles O33: a waiting phase reads nothing, and the other operations are `SameWith` the other
buffer. -/
theorem bytesBeyondLengthHaveNoEffect : Obligations.BytesBeyondLengthHaveNoEffect := by
  unfold Obligations.BytesBeyondLengthHaveNoEffect
  rintro s t m ⟨hp, hc, -⟩ hagree h
  obtain hb | hw := hc.busy_or_waiting
  · have hsame : opWrites (decode s.phase) { s with buffer := m } = _ :=
      opWrites_sameWith hp hb hagree
    rw [coreStep_eq] at h ⊢
    rw [exec_next_iff] at h ⊢
    obtain hok | ⟨f, herr, rfl⟩ := h
    · exact .inl (hsame.trans (by rw [hok]; rfl))
    · exact .inr ⟨f, hsame.trans (by rw [herr]; rfl), (raiseFault_with_buffer f m s).symm⟩
  · rw [coreStep_of_waiting hw] at h
    cases h
    exact coreStep_of_waiting hw

end Sys2Proof.Safety
end
